-- ==== Sys2Proof/Config.lean ====
section
/-! DEFINITION. What an implementation of the block fixes: the width `W` (R5). No value of the block is left open by
the spec, so no free value stands here; the open delay (R7) is the schedule of turns in State. -/

namespace Sys2Proof

/-- The one open implementation parameter (R5): `W`, an integer with `W >= 32`. -/
structure Config where
  /-- The width in bits of every host-visible register. -/
  W : Nat
  /-- `W >= 32` (R5). -/
  W_ge : 32 ≤ W
deriving DecidableEq, Repr

/-- The parameter `State.reset` has. DESIGN CHOICE (log 1): the least width R5 allows, at which the spec's test programs
write their words out. Statements hold for every `Config`; only one about `State.reset` alone has this width. -/
def Config.atReset : Config where
  W := 32
  W_ge := by decide

end Sys2Proof
end

