-- ==== Sys2Proof/Word.lean ====
section
/-! DEFINITION. The machine word: a string of `W` bits (R9), and the 4-bit register index of the port (R6, R70). -/

namespace Sys2Proof

/-- The content of a register: `W` bits, bit `i` of weight `2^i` (R9). -/
abbrev Word (W : Nat) := BitVec W

/-- A register address of the port: a 4-bit index (R6, R50, R70). -/
abbrev Addr := BitVec 4

end Sys2Proof
end

