-- ==== Sys2Proof/Syntax.lean ====
section
/-! DEFINITION. The commands (R73), the operand registers (R20) and the sixteen places of the register space (R70). -/

namespace Sys2Proof

/-- The commands, one constructor per row of the opcode table (R73). No command carries an operand (R72). -/
inductive Instr
  | clr      -- CLR, R97
  | modexp   -- MODEXP, R110
  | jacobi   -- JACOBI, R130
  | lucas    -- LUCAS, R150
  | mrtest   -- MRTEST, R170
deriving DecidableEq, Repr

/-- The number of a command word (R73, first column). -/
def Instr.code : Instr → Nat
  | .clr => 0
  | .modexp => 1
  | .jacobi => 2
  | .lucas => 3
  | .mrtest => 4

/-- A computing command: one that is accepted, runs and completes (R94). `CLR` is the only other one (R102). -/
def Instr.computing : Instr → Bool
  | .clr => false
  | .modexp => true
  | .jacobi => true
  | .lucas => true
  | .mrtest => true

/-- The eight operand registers (R20 to R25). -/
inductive Reg
  | n | a | e | u0 | v0 | p | q | d
deriving DecidableEq, Repr

/-- What an address of the register space names (R20, R70). -/
inductive Loc
  | operand (r : Reg)
  | res0
  | res1
  | cmd
  | status
  | cfg
  | reserved
deriving DecidableEq, Repr

end Sys2Proof
end

