-- ==== Sys2Proof/WellFormed.lean ====
section
/-! DEFINITION. The checks on a command and on a command word (R71, R73, R74). -/

namespace Sys2Proof

/-- The command's number fits a `W`-bit command word (R71: a command is exactly one `W`-bit word). It does for every
width R5 allows. -/
def Instr.wf (W : Nat) (i : Instr) : Bool := decide (i.code < 2 ^ W)

/-- The `zero` field, bits `W-1` down to 4, is all zero (R71). -/
def zeroFieldClear {W : Nat} (c : Word W) : Bool := c.toNat / 16 == 0

/-- The `opcode` field, bits 3 to 0, selects a command (R71, R73). -/
def opcodeAssigned {W : Nat} (c : Word W) : Bool := decide (c.toNat % 16 ≤ 4)

/-- A command word is legal: both checks hold (R74). -/
def commandWordWf {W : Nat} (c : Word W) : Bool := zeroFieldClear c && opcodeAssigned c

end Sys2Proof
end

