-- ==== Sys2Proof/Decode.lean ====
section
/-! DEFINITION. Decoding of command words (R73, R74) and of register addresses (R70), and the encoders beside them. -/

namespace Sys2Proof

/-- What a word written to `CMD` is: a command, or an illegal word, named as such (R73, R74). -/
inductive Decoded
  | command (i : Instr)
  | illegalCommand
deriving DecidableEq, Repr

/-- The table of R73, on `nat(c)`. -/
def decodeNat : Nat → Decoded
  | 0 => .command .clr
  | 1 => .command .modexp
  | 2 => .command .jacobi
  | 3 => .command .lucas
  | 4 => .command .mrtest
  | _ => .illegalCommand

/-- Decoding is on the whole `W`-bit word (R73); every word but five is illegal (R74). -/
def decodeCommand {W : Nat} (c : Word W) : Decoded := decodeNat c.toNat

/-- The register map (R70). -/
def decodeAddr (addr : Addr) : Loc :=
  match addr.toNat with
  | 0 => .operand .n
  | 1 => .operand .a
  | 2 => .operand .e
  | 3 => .operand .u0
  | 4 => .operand .v0
  | 5 => .operand .p
  | 6 => .operand .q
  | 7 => .operand .d
  | 8 => .res0
  | 9 => .res1
  | 10 => .cmd
  | 11 => .status
  | 12 => .cfg
  | _ => .reserved

/-- The word of a command (R71, R73): its number in the low bits, the `zero` field clear. -/
def encode (W : Nat) (i : Instr) : Word W := BitVec.ofNat W i.code

/-- The address of an operand register (R70). -/
def Reg.addr : Reg → Addr
  | .n => 0x0#4
  | .a => 0x1#4
  | .e => 0x2#4
  | .u0 => 0x3#4
  | .v0 => 0x4#4
  | .p => 0x5#4
  | .q => 0x6#4
  | .d => 0x7#4

/-- The address of `RES0` (R70). -/
def res0Addr : Addr := 0x8#4

/-- The address of `RES1` (R70). -/
def res1Addr : Addr := 0x9#4

/-- The address of `CMD` (R70). -/
def cmdAddr : Addr := 0xA#4

/-- The address of `STATUS` (R70). -/
def statusAddr : Addr := 0xB#4

/-- The address of `CFG` (R70). -/
def cfgAddr : Addr := 0xC#4

/-- The command of a row of the opcode table: the row's bits `w`, taken as a command word whose bits above `nbits` are 0,
given to the decoder. There is no byte order (R51): the word is one number. Its width is the least that R5 allows and
that holds the row. -/
def decodeTableWord (nbits w : Nat) : Option Instr :=
  match decodeCommand (BitVec.ofNat (max Config.atReset.W nbits) (w % 2 ^ nbits)) with
  | .command i => some i
  | .illegalCommand => none

end Sys2Proof
end

