-- ==== Sys2Proof/Machine/State.lean ====
section
/-! DEFINITION. The state of the block (R20), the host's side of the port, the reasons a step can stop, and reset (R37). -/

namespace Sys2Proof.Machine

open Sys2Proof

/-- Why the machine stops. -/
inductive Fault
  /-- The unit's turn finds `BUSY = 1` with `OP` outside 1 to 4 (`unitTurn` in Machine/Port.lean). R30 and R96 say that
  no reachable state is so, and the spec gives no effect for it. Safe: the machine stops, and only in states no run
  from reset reaches (log 8). -/
  | busyWithoutCommand
deriving DecidableEq, Repr

/-- Why the model gives no meaning. -/
inductive Refusal
  /-- A command whose arm of `exec` has no meaning yet; no arm is so now. Safe. -/
  | notModelled (mnemonic : String)
deriving DecidableEq, Repr

/-- The whole architectural state of the block (R20), for the width `W`. -/
structure Block (W : Nat) where
  /-- Operand register `N` (R21). -/
  n : Word W
  /-- Operand register `A` (R22). -/
  a : Word W
  /-- Operand register `E` (R23). -/
  e : Word W
  /-- Operand register `U0` (R24). -/
  u0 : Word W
  /-- Operand register `V0` (R24). -/
  v0 : Word W
  /-- Operand register `P` (R25). -/
  p : Word W
  /-- Operand register `Q` (R25). -/
  q : Word W
  /-- Operand register `D` (R25). -/
  d : Word W
  /-- Result register `RES0` (R26). -/
  res0 : Word W
  /-- Result register `RES1` (R26). -/
  res1 : Word W
  /-- `STATUS.BUSY`, bit 0 (R28). -/
  busy : Bool
  /-- `STATUS.DONE`, bit 1 (R28). -/
  done : Bool
  /-- `STATUS.ERR`, bit 2 (R28). -/
  err : Bool
  /-- `STATUS.AERR`, bit 3, sticky (R28, R214). -/
  aerr : Bool
  /-- `STATUS.ECODE`, bits 7 to 4 (R28, R78). -/
  ecode : BitVec 4
  /-- `STATUS.OP`, bits 11 to 8 (R28). -/
  op : BitVec 4
deriving DecidableEq, Repr

/-- One turn of one of the two agents (R11), or a reset. Each takes its whole effect before the next (R56). -/
inductive Turn (W : Nat)
  /-- The host's `RD(addr)` (R90). -/
  | rd (addr : Addr)
  /-- The host's `WR(addr, data)` (R91). -/
  | wr (addr : Addr) (data : Word W)
  /-- The unit's turn: `COMPLETE` where it is enabled (R96), else nothing happens (log 4). -/
  | unit
  /-- `rst` is asserted (R230), with the `WR` and the `COMPLETE` that fall in the same cycle, which lose (log 9). -/
  | reset (lostWrite : Option (Addr × Word W)) (lostComplete : Bool)
deriving DecidableEq, Repr

/-- The outside of the port: whose turn comes next, and what the host has read. The model's own (log 2, log 3). -/
structure Port (W : Nat) where
  /-- The turns still to be taken, the next one first. -/
  turns : List (Turn W)
  /-- The string the latest `RD` returned; none before the first. -/
  rdata : Option (Word W)
deriving DecidableEq, Repr

/-- The state of a step: the parameter (R5; no step changes it), the block, the port. -/
structure State where
  cfg : Config
  block : Block cfg.W
  port : Port cfg.W
deriving DecidableEq, Repr

/-- The reset value of every register and field (R37). -/
def Block.atReset (W : Nat) : Block W where
  n := 0#W
  a := 0#W
  e := 0#W
  u0 := 0#W
  v0 := 0#W
  p := 0#W
  q := 0#W
  d := 0#W
  res0 := 0#W
  res1 := 0#W
  busy := false
  done := false
  err := false
  aerr := false
  ecode := 0#4
  op := 0#4

/-- The machine right after reset (R37, R230): every register and field zero, the host has nothing to do yet. -/
def State.reset : State where
  cfg := Config.atReset
  block := Block.atReset Config.atReset.W
  port := { turns := [], rdata := none }

end Sys2Proof.Machine
end

