-- ==== Sys2Proof/Machine/Operands.lean ====
section
/-! DEFINITION. Operand forms: a register read whole as a signed value (R9, R72), a result written back as a `W`-bit
string (R9, R77), and the integer notation of R8. -/

namespace Sys2Proof.Machine

open Sys2Proof

/-- `sval(b)`: the two's complement value of a register's content (R9). -/
def sval {W : Nat} (b : Word W) : Int :=
  if b.toNat < 2 ^ (W - 1) then (b.toNat : Int) else (b.toNat : Int) - 2 ^ W

/-- `enc(v)`: the `W`-bit string whose signed value is `v`, for `-2^(W-1) <= v < 2^(W-1)` (R9). Outside that range, which
no command's result reaches (R96), it wraps (log 14). -/
def enc (W : Nat) (v : Int) : Word W := BitVec.ofInt W v

/-- The values a `W`-bit register can hold, as signed values (R5, R9). -/
abbrev fits (W : Nat) (v : Int) : Prop := -2 ^ (W - 1) ≤ v ∧ v < 2 ^ (W - 1)

/-- The content of an operand register (R20). -/
def Block.get {W : Nat} (b : Block W) : Reg → Word W
  | .n => b.n
  | .a => b.a
  | .e => b.e
  | .u0 => b.u0
  | .v0 => b.v0
  | .p => b.p
  | .q => b.q
  | .d => b.d

/-- The operand register's signed value, the one operand form of the block (R72: no zero-extended form, no scaling). -/
def Block.operand {W : Nat} (b : Block W) (r : Reg) : Int := sval (b.get r)

/-- `x[r] <- v`: all `W` bits of an operand register (R91). -/
def Block.set {W : Nat} (b : Block W) (r : Reg) (v : Word W) : Block W :=
  match r with
  | .n => { b with n := v }
  | .a => { b with a := v }
  | .e => { b with e := v }
  | .u0 => { b with u0 := v }
  | .v0 => { b with v0 := v }
  | .p => { b with p := v }
  | .q => { b with q := v }
  | .d => { b with d := v }

/-- `bitlen(v)`: the least `L` with `v < 2^L` (R8). -/
def bitlen (v : Nat) : Nat := if v = 0 then 0 else v.log2 + 1

/-- `bit(v, i) = (v >> i) mod 2` (R8). -/
def bit (v i : Nat) : Nat := (v >>> i) % 2

end Sys2Proof.Machine
end

