-- ==== Sys2Proof/Machine/Flags.lean ====
section
/-! DEFINITION. The status fields: the codes they hold (R76, R78), the `STATUS` word (R28, R90) and the two output
levels (R215). There are no condition codes (R32). -/

namespace Sys2Proof.Machine

open Sys2Proof

/-- `ECODE` when there is no error (R78). -/
def ecodeNone : BitVec 4 := 0#4

/-- `ECODE` of `INVALID_DOMAIN` (R78). -/
def ecodeInvalidDomain : BitVec 4 := 1#4

/-- `ECODE` of `ILLEGAL_COMMAND` (R78). -/
def ecodeIllegalCommand : BitVec 4 := 2#4

/-- `STATUS` as read: `BUSY + 2*DONE + 4*ERR + 8*AERR + 16*ECODE + 256*OP`, zero-extended to `W` bits (R28, R90). -/
def Block.status {W : Nat} (b : Block W) : Word W :=
  BitVec.ofNat W (b.busy.toNat + 2 * b.done.toNat + 4 * b.err.toNat + 8 * b.aerr.toNat
    + 16 * b.ecode.toNat + 256 * b.op.toNat)

/-- The output `busy` (R215). -/
def State.busyLine (s : State) : Bool := s.block.busy

/-- The output `done` (R215). -/
def State.doneLine (s : State) : Bool := s.block.done

/-- `RES0` of `MRTEST`: the verdict `COMPOSITE` (R76). -/
def verdictComposite : Int := 0

/-- `RES0` of `MRTEST`: the verdict `PROBABLE_PRIME` (R76). -/
def verdictProbablePrime : Int := 1

/-- `RES0` of `MRTEST`: `CONTINUE`, the stages did not decide (R76). -/
def verdictContinue : Int := 2

/-- `RES1` of `MRTEST`: trial division decided (R76). -/
def stageTrialDivision : Int := 1

/-- `RES1` of `MRTEST`: the Miller-Rabin test decided (R76). -/
def stageMillerRabin : Int := 2

/-- `RES1` of `MRTEST`: the square test was the last to run (R76). -/
def stageSquare : Int := 3

end Sys2Proof.Machine
end

