-- ==== Sys2Proof/Machine/Ops.lean ====
section
/-! DEFINITION. The shared operations on the block: a read of the register space (R90), a refused write (R92, R93),
acceptance (R94), completion (R96), the two reported errors (R211, R212), clearing (R97), and the two phases of a
computing command. The block takes no exception (R210, R217): an error is recorded in `STATUS`, by `raiseInvalidDomain`
and `raiseIllegalCommand` alone, and there is no return from one (R219). -/

namespace Sys2Proof.Machine

open Sys2Proof

/-- What a command's function gives: `InvalidDomain`, or the two results (R96). -/
inductive OpResult
  | invalidDomain
  | results (r0 r1 : Int)
deriving DecidableEq, Repr

/-- What a `RD` of a place returns (R90). -/
def Block.read {W : Nat} (b : Block W) : Loc → Word W
  | .operand r => b.get r
  | .res0 => b.res0
  | .res1 => b.res1
  | .cmd => enc W 0
  | .status => b.status
  | .cfg => enc W W
  | .reserved => enc W 0

/-- A refused write: nothing changes but `AERR <- 1` (R92, R93, R214). -/
def Block.refuseWrite {W : Nat} (b : Block W) : Block W := { b with aerr := true }

/-- Acceptance of the computing command of number `code`: `AERR` and the operand registers are unchanged (R94). -/
def Block.accept {W : Nat} (b : Block W) (code : Nat) : Block W :=
  { b with
    busy := true
    done := false
    err := false
    ecode := ecodeNone
    op := BitVec.ofNat 4 code
    res0 := enc W 0
    res1 := enc W 0 }

/-- `INVALID_DOMAIN`: the running command ends and writes no result (R96, R211). -/
def Block.raiseInvalidDomain {W : Nat} (b : Block W) : Block W :=
  { b with err := true, ecode := ecodeInvalidDomain, busy := false, done := true }

/-- `ILLEGAL_COMMAND`, at once, for the word `c` (R98, R212). -/
def Block.raiseIllegalCommand {W : Nat} (b : Block W) (c : Word W) : Block W :=
  { b with
    done := true
    err := true
    ecode := ecodeIllegalCommand
    op := BitVec.ofNat 4 c.toNat
    res0 := enc W 0
    res1 := enc W 0 }

/-- `COMPLETE` with the outcome `out`: both results are written, or neither (R96). -/
def Block.complete {W : Nat} (b : Block W) : OpResult → Block W
  | .invalidDomain => b.raiseInvalidDomain
  | .results r0 r1 => { b with res0 := enc W r0, res1 := enc W r1, busy := false, done := true }

/-- `CLR`'s effect, and reset's: every register and field takes its reset value (R97, R230). -/
def Block.clear {W : Nat} (_ : Block W) : Block W := Block.atReset W

/-- The step of the computing command `i`, whose function gives `out` on the operand registers. Idle, the command is
accepted (R94). Busy with `i`, the unit completes it (R96). Busy with another command, `i` is turned away as any write
is (R92); the port refuses a write to a busy block before it looks at the word (R95), so no step comes here (log 6). -/
def Block.runCommand {W : Nat} (b : Block W) (i : Instr) (out : OpResult) : Block W :=
  if b.busy then
    if b.op.toNat = i.code then b.complete out else b.refuseWrite
  else b.accept i.code

/-- The output `rdata`, which continuously shows what a `RD` of the address on the port returns (R223). -/
def State.rdataLine (s : State) (addr : Addr) : Word s.cfg.W := s.block.read (decodeAddr addr)

/-- The state with another block. -/
@[reducible] def State.withBlock (s : State) (b : Block s.cfg.W) : State := { s with block := b }

/-- The state with the turns still to be taken. -/
@[reducible] def State.withTurns (s : State) (ts : List (Turn s.cfg.W)) : State := { s with port := { s.port with turns := ts } }

/-- The state after a `RD` that returned `v` (R90). -/
@[reducible] def State.withRead (s : State) (v : Word s.cfg.W) : State := { s with port := { s.port with rdata := some v } }

end Sys2Proof.Machine
end

