-- ==== Sys2Proof/Machine/Control.lean ====
section
/-! DEFINITION. The housekeeping command `CLR` (R97). -/

namespace Sys2Proof.Machine

open Sys2Proof

/-- `CLR` (R97): idle, every register and field takes its reset value, with no busy phase; while busy it is refused
like any write (R92). -/
def execClr (s : State) : Host.Outcome State Fault Refusal :=
  .next (s.withBlock (if s.block.busy then s.block.refuseWrite else s.block.clear))

end Sys2Proof.Machine
end

