-- ==== Sys2Proof/Machine/Jacobi.lean ====
section
/-! DEFINITION. The Jacobi symbol engine (R130 to R139). -/

namespace Sys2Proof.Machine

open Sys2Proof

/-- `Two(n)`, the lookup on `n mod 8` for odd `n` (R133). -/
def jacobiTwo (n : Int) : Int := if n % 8 = 1 ∨ n % 8 = 7 then 1 else -1

/-- `Sgn(n)`: `-1` when `(n - 1) / 2` is odd, as an integer parity (R131, R134). -/
def jacobiSgn (n : Int) : Int := if (n - 1) / 2 % 2 = 1 then -1 else 1

/-- `Flip(a, n)`, the sign of reciprocity (R131). -/
def jacobiFlip (a n : Int) : Int := if a % 4 = 3 ∧ n % 4 = 3 then -1 else 1

/-- The engine: the working values `a`, `n` and the sign `t`, one reduction a pass until a base case is met, the cases
tried in the order of R131 (R135). The first argument bounds the passes; for an odd `n >= 1` it does not run out with
`jacobiPasses` (Laws/Jacobi.lean), so its 0 is no result (log 13). -/
def jacobiLoop : Nat → Int → Int → Int → Int
  | 0, _, _, _ => 0
  | passes + 1, a, n, t =>
    if n = 1 then t
    else if a = 0 then 0
    else if a = 1 then t
    else if a = 2 then t * jacobiTwo n
    else if a < 0 then jacobiLoop passes (-a) n (t * jacobiSgn n)
    else if a % 2 = 0 then jacobiLoop passes (a / 2) n (t * jacobiTwo n)
    else if n ≤ a then jacobiLoop passes (a % n) n t
    else jacobiLoop passes n a (t * jacobiFlip a n)

/-- A bound on the engine's passes, a small multiple of the operands' lengths (R138). -/
def jacobiPasses (a n : Int) : Nat := 2 * (bitlen a.natAbs + bitlen n.natAbs) + 3

/-- `Jacobi(a, n)` for odd `n >= 1`, by the iterative engine (R131, R135). -/
def jacobi (a n : Int) : Int := jacobiLoop (jacobiPasses a n) a n 1

/-- `JacobiOp` (R130), with the domain of R132. -/
def jacobiOp (a n : Int) : OpResult :=
  if n < 1 ∨ n % 2 = 0 then .invalidDomain else .results (jacobi a n) 0

/-- `JacobiOp` on the registers `JACOBI` reads (R72): `A` and `N`. -/
def Block.jacobiResult {W : Nat} (b : Block W) : OpResult := jacobiOp (b.operand .a) (b.operand .n)

/-- `JACOBI` (R130): accepted (R94), and completed by `JacobiOp` (R96). -/
def execJacobi (s : State) : Host.Outcome State Fault Refusal :=
  .next (s.withBlock (s.block.runCommand .jacobi s.block.jacobiResult))

end Sys2Proof.Machine
end

