-- ==== Sys2Proof/Machine/ModExp.lean ====
section
/-! DEFINITION. The modular exponentiation unit (R110 to R120). -/

namespace Sys2Proof.Machine

open Sys2Proof

/-- The loop of the reference algorithm, from the exponent's least significant bit (R113). The first argument bounds the
passes: `bitlen(e)` of them are made (R118). -/
def modExpLoop (m : Int) : Nat → Int → Int → Nat → Int
  | 0, acc, _, _ => acc
  | passes + 1, acc, sq, e =>
    if e = 0 then acc
    else modExpLoop m passes (if e % 2 = 1 then acc * sq % m else acc) (sq * sq % m) (e / 2)

/-- `ModExp(b, e, m)` for `e >= 0`, `m >= 1`, by binary exponentiation, the base reduced first (R111, R113). -/
def modExp (b e m : Int) : Int := modExpLoop m (bitlen e.toNat) 1 (b % m) e.toNat

/-- `ModExpOp` (R110), with the domain of R112. -/
def modExpOp (b e m : Int) : OpResult :=
  if e < 0 ∨ m < 1 then .invalidDomain else .results (modExp b e m) 0

/-- `ModExpOp` on the registers `MODEXP` reads (R72): base `A`, exponent `E`, modulus `N`. -/
def Block.modExpResult {W : Nat} (b : Block W) : OpResult := modExpOp (b.operand .a) (b.operand .e) (b.operand .n)

/-- `MODEXP` (R110): accepted (R94), and completed by `ModExpOp` (R96). -/
def execModexp (s : State) : Host.Outcome State Fault Refusal :=
  .next (s.withBlock (s.block.runCommand .modexp s.block.modExpResult))

end Sys2Proof.Machine
end

