-- ==== Sys2Proof/Machine/Lucas.lean ====
section
/-! DEFINITION. The Lucas sequence unit (R150 to R163). -/

namespace Sys2Proof.Machine

open Sys2Proof

/-- LucasState: the working pair and its subscript (R33, R162). -/
structure LucasPair where
  U : Int
  V : Int
  sub : Int
deriving DecidableEq, Repr

/-- The doubling step (R153): both values from the pair before it. -/
def lucasDouble (n q : Int) (x : LucasPair) : LucasPair where
  U := x.U * x.V % n
  V := (x.V * x.V - 2 * modExp q x.sub n) % n
  sub := 2 * x.sub

/-- The parity correction and the halving (R154): `n` is added iff the quantity is odd, the half is reduced. -/
def lucasHalve (n t : Int) : Int := (if t % 2 = 1 then t + n else t) / 2 % n

/-- The step update for a 1 digit (R154): `tU = p*U + V`, `tV = d*U + p*V`, both from the pair before it. -/
def lucasStep (n p d : Int) (x : LucasPair) : LucasPair where
  U := lucasHalve n (p * x.U + x.V)
  V := lucasHalve n (d * x.U + p * x.V)
  sub := x.sub + 1

/-- The scan of the digits `i - 1` down to 0 of `k`, a doubling for each and a step update for each 1 (R151). -/
def lucasScan (k : Nat) (n p q d : Int) : Nat → LucasPair → LucasPair
  | 0, x => x
  | i + 1, x =>
    lucasScan k n p q d i
      (if bit k i = 1 then lucasStep n p d (lucasDouble n q x) else lucasDouble n q x)

/-- `LucasAdv(k, n, u0, v0, p, q, d)` for `k >= 1` and odd `n >= 1`: from subscript 1, every digit of `k` below the
leading 1, high to low (R151, R155). R161's row for `u0 = v0 = 0` says that `U` stays 0, which these rules give only where no
step update runs; they are followed (log 20). -/
def lucasAdv (k n u0 v0 p q d : Int) : LucasPair :=
  lucasScan k.toNat n p q d (bitlen k.toNat - 1) { U := u0 % n, V := v0 % n, sub := 1 }

/-- `LucasOp` (R150), with the domain of R152; `D` is not checked (R156). -/
def lucasOp (k n u0 v0 p q d : Int) : OpResult :=
  if k < 1 ∨ n < 1 ∨ n % 2 = 0 then .invalidDomain
  else .results (lucasAdv k n u0 v0 p q d).U (lucasAdv k n u0 v0 p q d).V

/-- `LucasOp` on the registers `LUCAS` reads (R72): `E`, `N`, `U0`, `V0`, `P`, `Q`, `D`. -/
def Block.lucasResult {W : Nat} (b : Block W) : OpResult :=
  lucasOp (b.operand .e) (b.operand .n) (b.operand .u0) (b.operand .v0) (b.operand .p) (b.operand .q) (b.operand .d)

/-- `LUCAS` (R150): accepted (R94), and completed by `LucasOp` (R96). -/
def execLucas (s : State) : Host.Outcome State Fault Refusal :=
  .next (s.withBlock (s.block.runCommand .lucas s.block.lucasResult))

end Sys2Proof.Machine
end

