-- ==== Sys2Proof/Machine/MrTest.lean ====
section
/-! DEFINITION. The Miller-Rabin test unit (R170 to R181): trial division, the base-2 witness, the square test. -/

namespace Sys2Proof.Machine

open Sys2Proof

/-- The small-prime table: the 95 primes from 2 to 499 (R34, R171). -/
def smallPrimes : List Int :=
  [2, 3, 5, 7, 11, 13, 17, 19, 23, 29, 31, 37, 41, 43, 47, 53, 59, 61, 67, 71]
    ++ [73, 79, 83, 89, 97, 101, 103, 107, 109, 113, 127, 131, 137, 139, 149, 151, 157, 163, 167, 173]
    ++ [179, 181, 191, 193, 197, 199, 211, 223, 227, 229, 233, 239, 241, 251, 257, 263, 269, 271, 277, 281]
    ++ [283, 293, 307, 311, 313, 317, 331, 337, 347, 349, 353, 359, 367, 373, 379, 383, 389, 397, 401, 409]
    ++ [419, 421, 431, 433, 439, 443, 449, 457, 461, 463, 467, 479, 487, 491, 499]

/-- `d` and `s` of the decomposition `c - 1 = d * 2^s` (R170, R174): `d` is halved while it is even. The first argument
bounds the passes. -/
def splitTwos : Nat → Int → Nat → Int × Nat
  | 0, d, s => (d, s)
  | passes + 1, d, s => if d % 2 = 1 then (d, s) else splitTwos passes (d / 2) (s + 1)

/-- The squarings of stage 2, at most as many as the first argument: passed when `x` becomes `c - 1`, failed when it
becomes 1 before or the squarings run out (R174, R175). -/
def witnessLoop (c : Int) : Nat → Int → Bool
  | 0, _ => false
  | squarings + 1, x =>
    if x * x % c = c - 1 then true
    else if x * x % c = 1 then false
    else witnessLoop c squarings (x * x % c)

/-- Stage 2, the Miller-Rabin test to base 2: whether `c` passes (R174). -/
def millerRabin (c : Int) : Bool :=
  let (d, s) := splitTwos (bitlen (c - 1).toNat) (c - 1) 0
  let x := modExp 2 d c
  if x = 1 ∨ x = c - 1 then true else witnessLoop c (s - 1) x

/-- The bits `i - 1` down to 0 of the integer square root of `c` (R177). -/
def rootLoop (c : Int) : Nat → Int → Int
  | 0, r => r
  | i + 1, r => rootLoop c i (if (r + 2 ^ i) * (r + 2 ^ i) ≤ c then r + 2 ^ i else r)

/-- `IsSquare(c)` for `c >= 0` (R176), by bisection on bits (R177). -/
def isSquare (c : Int) : Bool :=
  let r := rootLoop c ((bitlen c.toNat + 1) / 2 + 1) 0
  r * r == c

/-- `MRTestOp` (R170), with the domain of R172. -/
def mrTestOp (c : Int) : OpResult :=
  if c < 2 then .invalidDomain
  else if c ∈ smallPrimes then .results verdictProbablePrime stageTrialDivision
  else if ∃ p ∈ smallPrimes, c % p = 0 then .results verdictComposite stageTrialDivision
  else if millerRabin c = false then .results verdictComposite stageMillerRabin
  else if isSquare c then .results verdictComposite stageSquare
  else .results verdictContinue stageSquare

/-- `MRTestOp` on the register `MRTEST` reads (R72): the candidate `N`. -/
def Block.mrTestResult {W : Nat} (b : Block W) : OpResult := mrTestOp (b.operand .n)

/-- `MRTEST` (R170): accepted (R94), and completed by `MRTestOp` (R96). -/
def execMrtest (s : State) : Host.Outcome State Fault Refusal :=
  .next (s.withBlock (s.block.runCommand .mrtest s.block.mrTestResult))

end Sys2Proof.Machine
end

