-- ==== Sys2Proof/Machine/Dispatch.lean ====
section
/-! DEFINITION. The step of each command: its acceptance when the block is idle, its completion when the block is busy
with it. -/

namespace Sys2Proof.Machine

open Sys2Proof

def exec (i : Instr) (s : State) : Host.Outcome State Fault Refusal :=
  match i with
  | .clr => Sys2Proof.Machine.execClr s
  | .modexp => Sys2Proof.Machine.execModexp s
  | .jacobi => Sys2Proof.Machine.execJacobi s
  | .lucas => Sys2Proof.Machine.execLucas s
  | .mrtest => Sys2Proof.Machine.execMrtest s

end Sys2Proof.Machine
end

