-- ==== Sys2Proof/Machine/Port.lean ====
section
/-! DEFINITION. The turns of the two agents at the port (R56, R90 to R98) and reset (R230, R231). -/

namespace Sys2Proof.Machine

open Sys2Proof

/-- `RD(addr)`: returns a string and changes nothing of the block, busy or idle (R90). -/
def readPort (s : State) (addr : Addr) : Host.Outcome State Fault Refusal :=
  .next (s.withRead (s.rdataLine addr))

/-- A write to `CMD` while idle: the word is decoded, and the command takes its step or the word is reported as illegal
(R95, R98). -/
def issueCommand (s : State) (c : Word s.cfg.W) : Host.Outcome State Fault Refusal :=
  match decodeCommand c with
  | .command i => exec i s
  | .illegalCommand => .next (s.withBlock (s.block.raiseIllegalCommand c))

/-- `WR(addr, data)`. The checks come in this order: busy (R92), then the address (R91, R93), then the command word
(R95, R216). -/
def writePort (s : State) (addr : Addr) (data : Word s.cfg.W) : Host.Outcome State Fault Refusal :=
  if s.block.busy then .next (s.withBlock s.block.refuseWrite)
  else
    match decodeAddr addr with
    | .operand r => .next (s.withBlock (s.block.set r data))
    | .cmd => issueCommand s data
    | .res0 => .next (s.withBlock s.block.refuseWrite)
    | .res1 => .next (s.withBlock s.block.refuseWrite)
    | .status => .next (s.withBlock s.block.refuseWrite)
    | .cfg => .next (s.withBlock s.block.refuseWrite)
    | .reserved => .next (s.withBlock s.block.refuseWrite)

/-- The unit's turn. Busy, it is `COMPLETE`: the command that `OP` names takes its step (R96). Idle, the step is not
enabled and nothing happens. -/
def unitTurn (s : State) : Host.Outcome State Fault Refusal :=
  if s.block.busy then
    match decodeNat s.block.op.toNat with
    | .command i => if i.computing then exec i s else .fault .busyWithoutCommand
    | .illegalCommand => .fault .busyWithoutCommand
  else .next s

/-- Reset (R230), also while busy (R231) and before any other reset (R232): the block takes its reset state at once. It
has priority over a `WR` and over `COMPLETE` of the same cycle, so neither has an effect. -/
def resetTurn (s : State) : Host.Outcome State Fault Refusal := .next (s.withBlock (Block.atReset s.cfg.W))

/-- One turn takes its whole effect (R56). DEDUCED (log 21): R56 promises one pair to reads of `RES0` and `RES1` with no
write to `CMD` and no reset between, also where `COMPLETE` falls between them; R90 and R96 are followed there, so the first
read gives 0 and the second the new value. -/
def takeTurn (s : State) (t : Turn s.cfg.W) : Host.Outcome State Fault Refusal :=
  match t with
  | .rd addr => readPort s addr
  | .wr addr data => writePort s addr data
  | .unit => unitTurn s
  | .reset _ _ => resetTurn s

end Sys2Proof.Machine
end

