-- ==== Sys2Proof/Machine/Step.lean ====
section
/-! DEFINITION. One step of the machine: the next turn of the schedule. -/

namespace Sys2Proof.Machine

open Sys2Proof

/-- One step. The next turn is taken out of the schedule and takes its effect. When no turn is left, the unit still
takes its own: a busy block completes (R100), and an idle one does nothing until the host writes `CMD` (R230). -/
def step (s : State) : Host.Outcome State Fault Refusal :=
  match s.port.turns with
  | [] => unitTurn s
  | t :: ts => takeTurn (s.withTurns ts) t

/-- The state in which the host's next turn writes the word `w`, of `nbits` bits, to `CMD` (R71): on an idle block the
very next step runs that command. -/
def State.withFetchWord (s : State) (nbits w : Nat) : State :=
  s.withTurns (.wr cmdAddr (BitVec.ofNat s.cfg.W (w % 2 ^ nbits)) :: s.port.turns)

end Sys2Proof.Machine
end

