-- ==== Sys2Proof/Machine/HostNotation.lean ====
section
/-! DEFINITION. The host notation of R79: each line of it as turns at the port. -/

namespace Sys2Proof.Machine

open Sys2Proof

/-- `WR r, v` (R79), for any register name, by its address (R70). -/
def hostWrite (W : Nat) (addr : Addr) (v : Int) : Turn W := .wr addr (enc W v)

/-- `RD r` (R79). -/
def hostRead (W : Nat) (addr : Addr) : Turn W := .rd addr

/-- `CMD m` (R79). -/
def hostCommand (W : Nat) (i : Instr) : Turn W := .wr cmdAddr (encode W i)

/-- `WAIT` (R79): `polls` reads of `STATUS` that find the block busy, the unit's turn, the read that finds `DONE`. How
many polls there are is the open delay (R7, R100), so it is an argument. -/
def hostWait (W : Nat) (polls : Nat) : List (Turn W) :=
  List.replicate polls (hostRead W statusAddr) ++ [.unit, hostRead W statusAddr]

/-- `MODEXP b, e, m` (R79). -/
def hostModexp (W polls : Nat) (b e m : Int) : List (Turn W) :=
  [hostWrite W (Reg.addr .a) b, hostWrite W (Reg.addr .e) e, hostWrite W (Reg.addr .n) m, hostCommand W .modexp] ++ hostWait W polls

/-- `JACOBI a, n` (R79). -/
def hostJacobi (W polls : Nat) (a n : Int) : List (Turn W) :=
  [hostWrite W (Reg.addr .a) a, hostWrite W (Reg.addr .n) n, hostCommand W .jacobi] ++ hostWait W polls

/-- `LUCAS k, n, u, v, p, q, d` (R79). -/
def hostLucas (W polls : Nat) (k n u v p q d : Int) : List (Turn W) :=
  [hostWrite W (Reg.addr .e) k, hostWrite W (Reg.addr .n) n, hostWrite W (Reg.addr .u0) u, hostWrite W (Reg.addr .v0) v, hostWrite W (Reg.addr .p) p, hostWrite W (Reg.addr .q) q,
    hostWrite W (Reg.addr .d) d, hostCommand W .lucas] ++ hostWait W polls

/-- `MRTEST c` (R79). -/
def hostMrtest (W polls : Nat) (c : Int) : List (Turn W) :=
  [hostWrite W (Reg.addr .n) c, hostCommand W .mrtest] ++ hostWait W polls

end Sys2Proof.Machine
end

