-- ==== Sys2Proof/Machine/Reference.lean ====
section
/-! DEFINITION. Values the rules define, written as the rules print them, for the statements to hold the units'
algorithms against. No step calls them. -/

namespace Sys2Proof.Machine

/-- `ModExp(b, e, m)` by its definition, for `e >= 0` and `m >= 1` (R111). -/
def refModExp (b e m : Int) : Int := if e = 0 then 1 else b ^ e.toNat % m

/-- The Lucas sequence `U_j(P, Q)` by its recurrence (R157). -/
def lucasU (P Q : Int) : Nat → Int
  | 0 => 0
  | 1 => 1
  | j + 2 => P * lucasU P Q (j + 1) - Q * lucasU P Q j

/-- The Lucas sequence `V_j(P, Q)` by its recurrence (R157). -/
def lucasV (P Q : Int) : Nat → Int
  | 0 => 2
  | 1 => P
  | j + 2 => P * lucasV P Q (j + 1) - Q * lucasV P Q j

/-- `c` passes the Miller-Rabin test to base 2: with `c - 1 = d * 2^s`, `d` odd, `2^d` is 1 or one of
`2^(d * 2^r)`, `r < s`, is `c - 1`, modulo `c` (R174). -/
def passesBaseTwo (c : Int) : Prop :=
  ∃ d s : Nat, c - 1 = d * 2 ^ s ∧ d % 2 = 1
    ∧ ((2 : Int) ^ d % c = 1 ∨ ∃ r, r < s ∧ (2 : Int) ^ (d * 2 ^ r) % c = c - 1)

end Sys2Proof.Machine
end

