-- ==== Sys2Proof/Safety.lean ====
section
/-! DEFINITION. What a reachable state satisfies (R30) and what a safe run is. -/

namespace Sys2Proof

open Sys2Proof.Machine

/-- The invariants of the status fields (R30). -/
abbrev Machine.Block.Inv {W : Nat} (b : Block W) : Prop :=
  (b.busy = true → b.done = false ∧ b.err = false ∧ b.ecode = ecodeNone ∧ b.res0 = enc W 0 ∧ b.res1 = enc W 0
    ∧ 1 ≤ b.op.toNat ∧ b.op.toNat ≤ 4)
  ∧ (b.err = true → b.done = true ∧ (b.ecode = ecodeInvalidDomain ∨ b.ecode = ecodeIllegalCommand))
  ∧ (b.err = false → b.ecode = ecodeNone)
  ∧ (b.ecode = ecodeIllegalCommand → b.res0 = enc W 0 ∧ b.res1 = enc W 0)
  ∧ (b.ecode = ecodeInvalidDomain → b.res0 = enc W 0 ∧ b.res1 = enc W 0)

/-- The invariant of the machine: the block's. -/
abbrev Machine.State.Inv (s : State) : Prop := s.block.Inv

/-- A safe run of `k` steps from `s`: it stops at no fault and no refusal. -/
def SafeFor (k : Nat) (s : State) : Prop := ∃ t, core.run k s = .next t

/-- The operand registers a command reads (R72). -/
def Instr.reads : Instr → List Reg
  | .clr => []
  | .modexp => [.a, .e, .n]
  | .jacobi => [.a, .n]
  | .lucas => [.e, .n, .u0, .v0, .p, .q, .d]
  | .mrtest => [.n]

/-- The block is busy with the command `i`. -/
abbrev Machine.State.running (s : State) (i : Instr) : Prop := s.block.busy = true ∧ s.block.op.toNat = i.code

/-- A host transaction: a `RD` or a `WR` (R11, R71). -/
def Machine.Turn.isHost {W : Nat} : Turn W → Bool
  | .rd _ => true
  | .wr _ _ => true
  | .unit => false
  | .reset _ _ => false

/-- A `WR`. -/
def Machine.Turn.isWrite {W : Nat} : Turn W → Bool
  | .rd _ => false
  | .wr _ _ => true
  | .unit => false
  | .reset _ _ => false

/-- The next turn resets the block. -/
def Machine.State.resetNext (s : State) : Prop :=
  ∃ w c ts, s.port.turns = .reset w c :: ts

/-- The next turn writes `data` to `addr`. -/
def Machine.State.writeNext (s : State) (addr : Addr) (data : Word s.cfg.W) : Prop :=
  ∃ ts, s.port.turns = .wr addr data :: ts

/-- The next turn is a write the block refuses: it is busy, or the address is read-only or reserved (R92, R93, R214). -/
def Machine.State.refusedNext (s : State) : Prop :=
  ∃ addr data, s.writeNext addr data
    ∧ (s.block.busy = true ∨ addr.toNat = 8 ∨ addr.toNat = 9 ∨ 11 ≤ addr.toNat)

/-- The next turn writes `CLR` to an idle block. -/
def Machine.State.clearNext (s : State) : Prop :=
  s.block.busy = false ∧ ∃ data, s.writeNext cmdAddr data ∧ data.toNat = 0

end Sys2Proof
end

