-- ==== Sys2Proof/Certificates/Slice0/Obligations.lean ====
section
/-! DEFINITION. The statements for the provers. Every one but those about `State.reset` holds for every width `W` that R5
allows, since `W` is a part of the state it speaks of. -/

open Sys2Proof Sys2Proof.Machine

/-! ## Encodings -/

/-- R73: decoding is on the whole word, and each command's word decodes to that command and to no other. -/
def Obligations.DecodeAndEncodeAgree : Prop :=
  ∀ (W : Nat) (c : Word W), 32 ≤ W →
    (∀ i, decodeCommand c = .command i ↔ c = encode W i)
    ∧ (decodeCommand c = .command .clr ↔ c.toNat = 0)
    ∧ (decodeCommand c = .command .modexp ↔ c.toNat = 1)
    ∧ (decodeCommand c = .command .jacobi ↔ c.toNat = 2)
    ∧ (decodeCommand c = .command .lucas ↔ c.toNat = 3)
    ∧ (decodeCommand c = .command .mrtest ↔ c.toNat = 4)
    ∧ (decodeCommand c = .illegalCommand ↔ c.toNat ∉ [0, 1, 2, 3, 4])

/-- A command word is legal by the two field checks of R71 exactly when it decodes to a command (R74). -/
def Obligations.LegalWordsAreTheFieldChecks : Prop :=
  ∀ (W : Nat) (c : Word W), commandWordWf c = true ↔ ∃ i, decodeCommand c = .command i

/-- The words of R73 and of 95_test_vectors.md (V0.11 to V0.14), bit by bit. -/
def Obligations.WrittenWordsDecode : Prop :=
  decodeCommand (0x00000000#32) = .command .clr
  ∧ decodeCommand (0x00000001#32) = .command .modexp
  ∧ decodeCommand (0x00000002#32) = .command .jacobi
  ∧ decodeCommand (0x00000003#32) = .command .lucas
  ∧ decodeCommand (0x00000004#32) = .command .mrtest
  ∧ decodeCommand (0x00000007#32) = .illegalCommand
  ∧ decodeCommand (0x00000011#32) = .illegalCommand
  ∧ decodeCommand (0x80000000#32) = .illegalCommand
  ∧ decodeCommand (0x0000000100000001#64) = .illegalCommand
  ∧ hostCommand 32 .lucas = .wr 0xA#4 0x00000003#32

/-- R70: the register map, all sixteen addresses. -/
def Obligations.RegisterMap : Prop :=
  decodeAddr 0x0#4 = .operand .n ∧ decodeAddr 0x1#4 = .operand .a ∧ decodeAddr 0x2#4 = .operand .e
  ∧ decodeAddr 0x3#4 = .operand .u0 ∧ decodeAddr 0x4#4 = .operand .v0 ∧ decodeAddr 0x5#4 = .operand .p
  ∧ decodeAddr 0x6#4 = .operand .q ∧ decodeAddr 0x7#4 = .operand .d ∧ decodeAddr 0x8#4 = .res0
  ∧ decodeAddr 0x9#4 = .res1 ∧ decodeAddr 0xA#4 = .cmd ∧ decodeAddr 0xB#4 = .status ∧ decodeAddr 0xC#4 = .cfg
  ∧ decodeAddr 0xD#4 = .reserved ∧ decodeAddr 0xE#4 = .reserved ∧ decodeAddr 0xF#4 = .reserved
  ∧ ∀ r : Reg, decodeAddr r.addr = .operand r

/-! ## Steps -/

/-- A step runs the decoded command: a command word written to an idle block makes the step that of `exec`, on the state
from which the turn is taken out. -/
def Obligations.StepRunsDecodedCommand : Prop :=
  ∀ (s : State) (data : Word s.cfg.W) (ts : List (Turn s.cfg.W)) (i : Instr),
    s.port.turns = .wr cmdAddr data :: ts → s.block.busy = false → decodeCommand data = .command i →
    step s = exec i (s.withTurns ts)

/-- The unit's turn on a busy block, and the step of a busy block when no turn is left, run the command that `OP` names:
`exec` of it, on the state from which the turn is taken out. -/
def Obligations.UnitTurnRunsCommandOfOp : Prop :=
  ∀ (s : State) (ts : List (Turn s.cfg.W)) (i : Instr), s.running i → i.computing = true →
    (s.port.turns = .unit :: ts → step s = exec i (s.withTurns ts)) ∧ (s.port.turns = [] → step s = exec i s)

/-- `withFetchWord` puts a command word where the next step takes it: on an idle block that step is `exec` of it, in the
very state it was given. -/
def Obligations.FetchedWordRunsNext : Prop :=
  ∀ (s : State) (i : Instr), s.block.busy = false → step (s.withFetchWord 32 i.code) = exec i s

/-- R95, R216: a `WR`, whatever the address and the word. The busy check is first, then the address, then the word; at
most one of them has an effect. -/
def Obligations.WriteDispatch : Prop :=
  ∀ (s : State) (addr : Addr) (data : Word s.cfg.W) (ts : List (Turn s.cfg.W)), s.port.turns = .wr addr data :: ts →
    step s = .next ((s.withTurns ts).withBlock
      (if s.block.busy then s.block.refuseWrite
       else match decodeAddr addr with
        | .operand r => s.block.set r data
        | .cmd =>
          if data.toNat = 0 then s.block.clear
          else if data.toNat ≤ 4 then s.block.accept data.toNat
          else s.block.raiseIllegalCommand data
        | _ => s.block.refuseWrite))

/-- An idle block does nothing of itself (R230, R31). -/
def Obligations.IdleBlockWaits : Prop :=
  ∀ (s : State) (ts : List (Turn s.cfg.W)), s.block.busy = false →
    (s.port.turns = [] → step s = .next s) ∧ (s.port.turns = .unit :: ts → step s = .next (s.withTurns ts))

/-! ## Host transactions -/

/-- What `RD` returns at every address (R90); nothing of the block changes. That the string stands in the port's `rdata` is
the model's form (log 3). -/
def Obligations.ReadReturnsRegisterSpace : Prop :=
  ∀ (s : State) (addr : Addr) (ts : List (Turn s.cfg.W)), s.port.turns = .rd addr :: ts →
    ∃ v : Word s.cfg.W, step s = .next ((s.withTurns ts).withRead v)
      ∧ (∀ r : Reg, addr = r.addr → v = s.block.get r)
      ∧ (addr = 0x8#4 → v = s.block.res0)
      ∧ (addr = 0x9#4 → v = s.block.res1)
      ∧ (addr = 0xA#4 → v.toNat = 0)
      ∧ (addr = 0xB#4 → v.toNat = s.block.busy.toNat + 2 * s.block.done.toNat + 4 * s.block.err.toNat
          + 8 * s.block.aerr.toNat + 16 * s.block.ecode.toNat + 256 * s.block.op.toNat)
      ∧ (addr = 0xC#4 → sval v = s.cfg.W)
      ∧ (13 ≤ addr.toNat → v.toNat = 0)
      ∧ (s.Inv → s.block.busy = true → addr = 0x8#4 ∨ addr = 0x9#4 → v.toNat = 0)

/-- The places of the fields in the `STATUS` word (R28), and the two output levels (R215). -/
def Obligations.StatusWordLayout : Prop :=
  ∀ s : State,
    s.block.status.getLsbD 0 = s.block.busy ∧ s.block.status.getLsbD 1 = s.block.done
    ∧ s.block.status.getLsbD 2 = s.block.err ∧ s.block.status.getLsbD 3 = s.block.aerr
    ∧ (∀ j, j < 4 → s.block.status.getLsbD (4 + j) = s.block.ecode.getLsbD j)
    ∧ (∀ j, j < 4 → s.block.status.getLsbD (8 + j) = s.block.op.getLsbD j)
    ∧ (∀ j, 12 ≤ j → s.block.status.getLsbD j = false)
    ∧ s.busyLine = s.block.status.getLsbD 0 ∧ s.doneLine = s.block.status.getLsbD 1

/-- R91: a write to an operand register of an idle block stores all of the word, and nothing else changes. -/
def Obligations.OperandWriteWhileIdle : Prop :=
  ∀ (s : State) (r : Reg) (data : Word s.cfg.W) (ts : List (Turn s.cfg.W)),
    s.port.turns = .wr r.addr data :: ts → s.block.busy = false →
    ∃ b : Block s.cfg.W, step s = .next ((s.withTurns ts).withBlock b)
      ∧ b.get r = data ∧ (∀ r', r' ≠ r → b.get r' = s.block.get r')
      ∧ b.res0 = s.block.res0 ∧ b.res1 = s.block.res1 ∧ b.busy = s.block.busy ∧ b.done = s.block.done
      ∧ b.err = s.block.err ∧ b.aerr = s.block.aerr ∧ b.ecode = s.block.ecode ∧ b.op = s.block.op

/-- R92: any write to a busy block is refused, whatever the address and the word. -/
def Obligations.WriteWhileBusyRefused : Prop :=
  ∀ (s : State) (addr : Addr) (data : Word s.cfg.W) (ts : List (Turn s.cfg.W)),
    s.port.turns = .wr addr data :: ts → s.block.busy = true →
    step s = .next ((s.withTurns ts).withBlock { s.block with aerr := true })

/-- R93: a write to a read-only or reserved address of an idle block is refused. -/
def Obligations.ReadOnlyWriteRefused : Prop :=
  ∀ (s : State) (addr : Addr) (data : Word s.cfg.W) (ts : List (Turn s.cfg.W)),
    s.port.turns = .wr addr data :: ts → s.block.busy = false →
    addr.toNat ∈ [8, 9, 11, 12, 13, 14, 15] →
    step s = .next ((s.withTurns ts).withBlock { s.block with aerr := true })

/-- R94: acceptance of a computing command, at the port. -/
def Obligations.AcceptanceEffect : Prop :=
  ∀ (s : State) (data : Word s.cfg.W) (ts : List (Turn s.cfg.W)),
    s.port.turns = .wr cmdAddr data :: ts → s.block.busy = false → data.toNat ∈ [1, 2, 3, 4] →
    ∃ op : BitVec 4, op.toNat = data.toNat ∧
      step s = .next ((s.withTurns ts).withBlock
        { s.block with
          busy := true, done := false, err := false, ecode := 0#4, op := op, res0 := 0#_, res1 := 0#_ })

/-- R98: an illegal command word written to an idle block. -/
def Obligations.IllegalCommandEffect : Prop :=
  ∀ (s : State) (data : Word s.cfg.W) (ts : List (Turn s.cfg.W)),
    s.port.turns = .wr cmdAddr data :: ts → s.block.busy = false → data.toNat ∉ [0, 1, 2, 3, 4] →
    ∃ op : BitVec 4, op.toNat = data.toNat % 16 ∧
      step s = .next ((s.withTurns ts).withBlock
        { s.block with done := true, err := true, ecode := 2#4, op := op, res0 := 0#_, res1 := 0#_ })

/-- R231, R37: a reset turn, from any state whatever (busy ones and ones no run reaches too), and whatever write and
completion fall in the same cycle, leaves every register and field zero. -/
def Obligations.ResetFromAnyState : Prop :=
  ∀ (s : State) (w : Option (Addr × Word s.cfg.W)) (c : Bool) (ts : List (Turn s.cfg.W)),
    s.port.turns = .reset w c :: ts →
    ∃ b : Block s.cfg.W, step s = .next ((s.withTurns ts).withBlock b)
      ∧ (∀ r, b.get r = 0#_) ∧ b.res0 = 0#_ ∧ b.res1 = 0#_ ∧ b.busy = false ∧ b.done = false ∧ b.err = false
      ∧ b.aerr = false ∧ b.ecode = 0#4 ∧ b.op = 0#4
      ∧ b.status = 0#_ ∧ b.read .cmd = 0#_ ∧ b.read .cfg = enc s.cfg.W s.cfg.W

/-- R37: the values after reset. The width 32 of `State.reset` is the model's choice (log 1). -/
def Obligations.ResetValues : Prop :=
  (∀ r, State.reset.block.get r = 0#_) ∧ State.reset.block.res0 = 0#_ ∧ State.reset.block.res1 = 0#_
  ∧ State.reset.block.busy = false ∧ State.reset.block.done = false ∧ State.reset.block.err = false
  ∧ State.reset.block.aerr = false ∧ State.reset.block.ecode = 0#4 ∧ State.reset.block.op = 0#4
  ∧ State.reset.block.status = 0#_ ∧ State.reset.block.read .cmd = 0#_
  ∧ State.reset.block.read .cfg = enc State.reset.cfg.W State.reset.cfg.W

/-! ## Commands -/

/-- R97: `CLR` on an idle block sets every register and field to its reset value, with no busy phase; on a busy block it
is refused; no other command clears `AERR` or an operand register. -/
def Obligations.ClearEffect : Prop :=
  (∀ s : State, s.block.busy = false → ∃ b : Block s.cfg.W, exec .clr s = .next (s.withBlock b)
      ∧ (∀ r, b.get r = 0#_) ∧ b.res0 = 0#_ ∧ b.res1 = 0#_ ∧ b.busy = false ∧ b.done = false ∧ b.err = false
      ∧ b.aerr = false ∧ b.ecode = 0#4 ∧ b.op = 0#4)
  ∧ (∀ s : State, s.block.busy = true → exec .clr s = .next (s.withBlock { s.block with aerr := true }))
  ∧ (∀ (i : Instr) (s t : State), i ≠ .clr → exec i s = .next t →
      (s.block.aerr = true → t.block.aerr = true) ∧ ∀ r, (t.block.get r).toNat = (s.block.get r).toNat)

/-- The frame of the four computing commands. None touches an operand register or the port; none but one turned away
touches `AERR`; a completion leaves `OP`. -/
def Obligations.ComputingCommandFrame : Prop :=
  ∀ (i : Instr) (s t : State), i.computing = true → exec i s = .next t →
    ∃ b : Block s.cfg.W, t = s.withBlock b
      ∧ (∀ r, b.get r = s.block.get r)
      ∧ (s.block.busy = false ∨ s.block.op.toNat = i.code → b.aerr = s.block.aerr)
      ∧ (s.block.busy = true → b.op = s.block.op)
      ∧ (s.block.busy = true → s.block.op.toNat ≠ i.code → b = { s.block with aerr := true })

/-- Acceptance and completion together: from an idle block each computing command is accepted and the unit's next turn
ends it, with `DONE` set, either in a result or in `INVALID_DOMAIN` with no result. -/
def Obligations.AcceptedCommandCompletes : Prop :=
  ∀ (i : Instr) (s : State), i.computing = true → s.block.busy = false →
    ∃ b c : Block s.cfg.W, exec i s = .next (s.withBlock b) ∧ b.busy = true ∧ b.op.toNat = i.code
      ∧ unitTurn (s.withBlock b) = exec i (s.withBlock b) ∧ exec i (s.withBlock b) = .next (s.withBlock c)
      ∧ c.busy = false ∧ c.done = true ∧ c.op.toNat = i.code ∧ c.aerr = s.block.aerr
      ∧ (∀ r, c.get r = s.block.get r)
      ∧ ((c.err = false ∧ c.ecode = 0#4) ∨ (c.err = true ∧ c.ecode = 1#4 ∧ c.res0 = 0#_ ∧ c.res1 = 0#_))

/-- R211: `INVALID_DOMAIN` in exactly these cases, and what it writes. -/
def Obligations.InvalidDomainOutcome : Prop :=
  ∀ (i : Instr) (s : State), i.computing = true → s.Inv → s.running i →
    let bad := match i with
      | .clr => False
      | .modexp => s.block.operand .e < 0 ∨ s.block.operand .n < 1
      | .jacobi => s.block.operand .n < 1 ∨ s.block.operand .n % 2 = 0
      | .lucas => s.block.operand .e < 1 ∨ s.block.operand .n < 1 ∨ s.block.operand .n % 2 = 0
      | .mrtest => s.block.operand .n < 2
    ∃ b : Block s.cfg.W, exec i s = .next (s.withBlock b) ∧ (b.err = true ↔ bad)
      ∧ (bad → b = { s.block with err := true, ecode := 1#4, done := true, busy := false }
          ∧ b.res0.toNat = 0 ∧ b.res1.toNat = 0)

/-- A command reads only its own operand registers (R72): the content of any other one makes no difference. -/
def Obligations.CommandsReadOnlyTheirOperands : Prop :=
  ∀ (i : Instr) (s : State) (r : Reg) (v : Word s.cfg.W), i.computing = true → r ∉ i.reads →
    ∃ b : Block s.cfg.W, exec i s = .next (s.withBlock b)
      ∧ exec i (s.withBlock (s.block.set r v)) = .next (s.withBlock (b.set r v))

/-- Every computing command started on the operands that reset leaves ends in `INVALID_DOMAIN` (R38). -/
def Obligations.ZeroOperandsAreInvalid : Prop :=
  ∀ (i : Instr) (s : State), i.computing = true → s.running i → (∀ r, s.block.get r = 0#_) →
    exec i s = .next (s.withBlock
      { s.block with err := true, ecode := 1#4, done := true, busy := false })

/-! ## MODEXP -/

/-- R110, R111: `MODEXP` computes `base^exponent mod modulus`, and 1 for the exponent 0; a negative exponent or a modulus
below 1 is `INVALID_DOMAIN`. -/
def Obligations.ModexpComputesPower : Prop :=
  ∀ s : State, s.running .modexp →
    exec .modexp s = .next (s.withBlock
      (if s.block.operand .e < 0 ∨ s.block.operand .n < 1 then
        { s.block with err := true, ecode := 1#4, busy := false, done := true }
       else
        { s.block with
          res0 := enc s.cfg.W (if s.block.operand .e = 0 then 1
            else s.block.operand .a ^ (s.block.operand .e).toNat % s.block.operand .n)
          res1 := 0#_, busy := false, done := true }))

/-- R116: the range of `MODEXP`'s result. -/
def Obligations.ModexpResultRange : Prop :=
  ∀ s : State, s.running .modexp → 0 ≤ s.block.operand .e → 1 ≤ s.block.operand .n →
    ∃ b : Block s.cfg.W, exec .modexp s = .next (s.withBlock b)
      ∧ 0 ≤ sval b.res0 ∧ sval b.res0 ≤ max 1 (s.block.operand .n - 1) ∧ b.res0.getMsbD 0 = false ∧ b.res1 = 0#_
      ∧ (s.block.operand .e = 0 → sval b.res0 = 1)
      ∧ (1 ≤ s.block.operand .e → sval b.res0 < s.block.operand .n)
      ∧ (1 ≤ s.block.operand .e → s.block.operand .n = 1 → sval b.res0 = 0)

/-- R117: the two boundary properties. -/
def Obligations.ModexpBoundaryProperties : Prop :=
  (∀ x n : Int, 0 < n → modExp x 0 n = 1) ∧ (∀ k n : Int, 0 < k → 0 < n → modExp 0 k n = 0)

/-- A base outside `[0, m)` counts as its residue (R115). -/
def Obligations.ModexpBaseByResidue : Prop :=
  ∀ b e m : Int, 0 ≤ e → 1 ≤ m → modExp b e m = modExp (b % m) e m

/-! ## JACOBI -/

/-- R130: `JACOBI` writes the symbol of R131, and 0; a modulus below 1 or even is `INVALID_DOMAIN`. The symbol is -1, 0 or
1, and -1 is stored as all ones. -/
def Obligations.JacobiWritesSymbol : Prop :=
  ∀ s : State, s.running .jacobi →
    exec .jacobi s = .next (s.withBlock
      (if s.block.operand .n < 1 ∨ s.block.operand .n % 2 = 0 then
        { s.block with err := true, ecode := 1#4, busy := false, done := true }
       else
        { s.block with
          res0 := enc s.cfg.W (jacobi (s.block.operand .a) (s.block.operand .n))
          res1 := 0#_, busy := false, done := true }))
    ∧ (1 ≤ s.block.operand .n → s.block.operand .n % 2 = 1 →
        jacobi (s.block.operand .a) (s.block.operand .n) ∈ [-1, 0, 1])
    ∧ enc s.cfg.W (-1) = BitVec.allOnes s.cfg.W

/-- R131: the cases of the symbol, in their order. -/
def Obligations.JacobiCases : Prop :=
  ∀ a n : Int, 1 ≤ n → n % 2 = 1 →
    (n = 1 → jacobi a n = 1)
    ∧ (n ≠ 1 → a = 0 → jacobi a n = 0)
    ∧ (n ≠ 1 → a = 1 → jacobi a n = 1)
    ∧ (n ≠ 1 → a = 2 → jacobi a n = if n % 8 = 1 ∨ n % 8 = 7 then 1 else -1)
    ∧ (n ≠ 1 → a < 0 → jacobi a n = (if (n - 1) / 2 % 2 = 1 then -1 else 1) * jacobi (-a) n)
    ∧ (n ≠ 1 → 4 ≤ a → a % 2 = 0 → jacobi a n = (if n % 8 = 1 ∨ n % 8 = 7 then 1 else -1) * jacobi (a / 2) n)
    ∧ (n ≠ 1 → 3 ≤ a → a % 2 = 1 → n ≤ a → jacobi a n = jacobi (a % n) n)
    ∧ (n ≠ 1 → 3 ≤ a → a % 2 = 1 → a < n →
        jacobi a n = (if a % 4 = 3 ∧ n % 4 = 3 then -1 else 1) * jacobi n a)

/-- The engine computes the Jacobi symbol of number theory, and the symbol depends on `a` modulo `n` only (R137). -/
def Obligations.JacobiIsTheNumberTheoreticSymbol : Prop :=
  ∀ a n : Int, 1 ≤ n → n % 2 = 1 → jacobi a n = jacobiSym a n.toNat ∧ jacobi a n = jacobi (a % n) n

/-- The symbol in `RES0` is one of three words (R77, R136), and it is zero exactly when `n > 1` shares a factor with `a`. -/
def Obligations.JacobiResultWord : Prop :=
  ∀ s : State, s.running .jacobi → 1 ≤ s.block.operand .n → s.block.operand .n % 2 = 1 →
    ∃ b : Block s.cfg.W, exec .jacobi s = .next (s.withBlock b)
      ∧ (b.res0.toNat = 1 ∨ b.res0.toNat = 0 ∨ b.res0.toNat = 2 ^ s.cfg.W - 1)
      ∧ (b.res0.toNat = 0 ↔ 1 < s.block.operand .n ∧ 1 < Int.gcd (s.block.operand .a) (s.block.operand .n))

/-! ## LUCAS -/

/-- R150: `LUCAS` writes the pair of `LucasAdv` (R151), no operand register is changed; `k` or `n` below 1 or an even `n`
is `INVALID_DOMAIN`. -/
def Obligations.LucasWritesPair : Prop :=
  ∀ s : State, s.running .lucas →
    exec .lucas s = .next (s.withBlock
      (if s.block.operand .e < 1 ∨ s.block.operand .n < 1 ∨ s.block.operand .n % 2 = 0 then
        { s.block with err := true, ecode := 1#4, busy := false, done := true }
       else
        { s.block with
          res0 := enc s.cfg.W (lucasAdv (s.block.operand .e) (s.block.operand .n) (s.block.operand .u0)
            (s.block.operand .v0) (s.block.operand .p) (s.block.operand .q) (s.block.operand .d)).U
          res1 := enc s.cfg.W (lucasAdv (s.block.operand .e) (s.block.operand .n) (s.block.operand .u0)
            (s.block.operand .v0) (s.block.operand .p) (s.block.operand .q) (s.block.operand .d)).V
          busy := false, done := true }))

/-- The digits of `k` from the top (R151, R153, R154, R155): the start at subscript 1, a doubling for each digit, a step
update for each 1 digit, each half formed after the parity correction, and the end at subscript `k`. -/
def Obligations.LucasDigitByDigit : Prop :=
  ∀ k n u v p q d : Int, 1 ≤ k → 1 ≤ n → n % 2 = 1 →
    lucasAdv 1 n u v p q d = { U := u % n, V := v % n, sub := 1 }
    ∧ let x := lucasAdv k n u v p q d
      let y : LucasPair :=
        { U := x.U * x.V % n, V := (x.V * x.V - 2 * refModExp q k n) % n, sub := 2 * k }
      let tU := p * y.U + y.V
      let tV := d * y.U + p * y.V
      x.sub = k ∧ lucasAdv (2 * k) n u v p q d = y
      ∧ (lucasAdv (2 * k + 1) n u v p q d).sub = 2 * k + 1
      ∧ (tU % 2 = 0 → (lucasAdv (2 * k + 1) n u v p q d).U = tU / 2 % n)
      ∧ (tU % 2 = 1 → (lucasAdv (2 * k + 1) n u v p q d).U = (tU + n) / 2 % n)
      ∧ (tV % 2 = 0 → (lucasAdv (2 * k + 1) n u v p q d).V = tV / 2 % n)
      ∧ (tV % 2 = 1 → (lucasAdv (2 * k + 1) n u v p q d).V = (tV + n) / 2 % n)

/-- R157: started on the terms of subscript 1, with `D` congruent to `P*P - 4*Q`, `LUCAS` computes the `k`-th terms of the
Lucas sequences of the recurrence. -/
def Obligations.LucasComputesSequenceTerms : Prop :=
  ∀ s : State, s.running .lucas → 1 ≤ s.block.operand .e → 1 ≤ s.block.operand .n → s.block.operand .n % 2 = 1 →
    (s.block.operand .u0 - 1) % s.block.operand .n = 0 →
    (s.block.operand .v0 - s.block.operand .p) % s.block.operand .n = 0 →
    (s.block.operand .d - (s.block.operand .p * s.block.operand .p - 4 * s.block.operand .q)) % s.block.operand .n = 0 →
    exec .lucas s = .next (s.withBlock
      { s.block with
        res0 := enc s.cfg.W
          (lucasU (s.block.operand .p) (s.block.operand .q) (s.block.operand .e).toNat % s.block.operand .n)
        res1 := enc s.cfg.W
          (lucasV (s.block.operand .p) (s.block.operand .q) (s.block.operand .e).toNat % s.block.operand .n)
        busy := false, done := true })

/-- The result depends on `u0`, `v0`, `p`, `q`, `d` through their residues modulo `n` only (R156). -/
def Obligations.LucasByResidues : Prop :=
  ∀ k n u v p q d : Int, 1 ≤ k → 1 ≤ n → n % 2 = 1 →
    lucasAdv k n u v p q d = lucasAdv k n (u % n) (v % n) (p % n) (q % n) (d % n)

/-- The results of `LUCAS` are in `[0, n)` and fit with the top bit zero (R158). -/
def Obligations.LucasResultRange : Prop :=
  ∀ s : State, s.running .lucas → 1 ≤ s.block.operand .e → 1 ≤ s.block.operand .n → s.block.operand .n % 2 = 1 →
    ∃ b : Block s.cfg.W, exec .lucas s = .next (s.withBlock b)
      ∧ 0 ≤ sval b.res0 ∧ sval b.res0 < s.block.operand .n ∧ 0 ≤ sval b.res1 ∧ sval b.res1 < s.block.operand .n
      ∧ b.res0.getMsbD 0 = false ∧ b.res1.getMsbD 0 = false

/-- One doubling from an arbitrary subscript (R163): `LUCAS` with `k = 2` and `ModExp(Q, j, n)` in `Q`. -/
def Obligations.LucasSingleDoubling : Prop :=
  ∀ n u v p Q j d : Int, 1 ≤ n → n % 2 = 1 → 1 ≤ j →
    (lucasAdv 2 n u v p (modExp Q j n) d).U = u * v % n
    ∧ (lucasAdv 2 n u v p (modExp Q j n) d).V = (v * v - 2 * Q ^ j.toNat) % n

/-- The corner cases of R161 where `LUCAS` runs. From a zero pair `U` stays 0 while only doublings run, so for every `k` that
is a power of two; a step update makes it half of `V`, as in the last clause, where the model follows R151 and R154 against
the row's words (log 20). -/
def Obligations.LucasCornerCases : Prop :=
  ∀ n u v p q d : Int, 1 ≤ n → n % 2 = 1 →
    lucasAdv 1 n u v p q d = { U := u % n, V := v % n, sub := 1 }
    ∧ lucasAdv 2 n u v p q d = { U := u * v % n, V := (v * v - 2 * q) % n, sub := 2 }
    ∧ (lucasAdv 3 n u v p q d).sub = 3
    ∧ (∀ k : Int, 1 ≤ k → lucasAdv k 1 u v p q d = { U := 0, V := 0, sub := k })
    ∧ (∀ i : Nat, (lucasAdv (2 ^ i) n 0 0 p q d).U = 0)
    ∧ (lucasAdv 2 n 0 0 p q d).V = -2 * q % n
    ∧ (∀ k : Int, 1 ≤ k →
        (lucasAdv (2 * k) n u v p 0 d).V = (lucasAdv k n u v p 0 d).V * (lucasAdv k n u v p 0 d).V % n)
    ∧ (lucasAdv 3 n 0 0 p q d).U
        = (let t := (lucasAdv 2 n 0 0 p q d).V; (if t % 2 = 1 then t + n else t) / 2 % n)

/-! ## MRTEST -/

/-- R171: the table is the 95 primes from 2 to 499. -/
def Obligations.SmallPrimeTable : Prop :=
  smallPrimes.length = 95 ∧ ∀ p : Int, p ∈ smallPrimes ↔ 2 ≤ p ∧ p ≤ 499 ∧ Nat.Prime p.toNat

/-- `MRTEST`'s verdict and stage (R170, R173, R174, R176), each stage by what it tests. -/
def Obligations.MrtestVerdictByStages : Prop :=
  ∀ s : State, s.running .mrtest → 2 ≤ s.block.operand .n →
    let c := s.block.operand .n
    ∃ verdict stage : Nat,
      exec .mrtest s = .next (s.withBlock
        { s.block with
          res0 := enc s.cfg.W verdict, res1 := enc s.cfg.W stage, busy := false, done := true })
      ∧ (c ∈ smallPrimes → verdict = 1 ∧ stage = 1)
      ∧ (c ∉ smallPrimes → (∃ p ∈ smallPrimes, p ∣ c) → verdict = 0 ∧ stage = 1)
      ∧ ((∀ p ∈ smallPrimes, ¬ p ∣ c) → ¬ passesBaseTwo c → verdict = 0 ∧ stage = 2)
      ∧ ((∀ p ∈ smallPrimes, ¬ p ∣ c) → passesBaseTwo c → (∃ r : Int, 0 ≤ r ∧ r * r = c) → verdict = 0 ∧ stage = 3)
      ∧ ((∀ p ∈ smallPrimes, ¬ p ∣ c) → passesBaseTwo c → (¬ ∃ r : Int, 0 ≤ r ∧ r * r = c) → verdict = 2 ∧ stage = 3)

/-- The verdicts are sound (R179): `PROBABLE_PRIME` exactly for the primes up to 499, `CONTINUE` for every other prime, so
`COMPOSITE` for composites only. -/
def Obligations.MrtestVerdictsAreSound : Prop :=
  ∀ c : Int, 2 ≤ c →
    (mrTestOp c = .results 1 1 ↔ c ≤ 499 ∧ Nat.Prime c.toNat)
    ∧ (499 < c → Nat.Prime c.toNat → mrTestOp c = .results 2 3)
    ∧ (∀ stage, mrTestOp c = .results 0 stage → ¬ Nat.Prime c.toNat)

/-- The only result pairs of `MRTEST` (R178). -/
def Obligations.MrtestResultPairs : Prop :=
  ∀ s : State, s.running .mrtest → 2 ≤ s.block.operand .n →
    ∃ b : Block s.cfg.W, exec .mrtest s = .next (s.withBlock b)
      ∧ (sval b.res0, sval b.res1) ∈ [((1 : Int), (1 : Int)), (0, 1), (0, 2), (0, 3), (2, 3)]

/-- A candidate that leaves stage 1 undecided is odd, at least 503 and without a prime factor below 503, and 253009 is the
least composite among them (R173). -/
def Obligations.UndecidedCandidates : Prop :=
  (∀ c : Int, 2 ≤ c → (∀ p ∈ smallPrimes, ¬ p ∣ c) →
    c % 2 = 1 ∧ 503 ≤ c ∧ (∀ p : Nat, p.Prime → p < 503 → ¬ (p : Int) ∣ c) ∧ (¬ Nat.Prime c.toNat → 253009 ≤ c))
  ∧ (∀ p ∈ smallPrimes, ¬ p ∣ 253009) ∧ ¬ Nat.Prime 253009

/-- The square test is exact (R176, R177). -/
def Obligations.SquareTestIsExact : Prop :=
  ∀ c : Int, 0 ≤ c → (isSquare c = true ↔ ∃ r : Int, 0 ≤ r ∧ r * r = c)

/-! ## Whole-machine rules -/

/-- The reset state satisfies the invariants of R30. -/
def Obligations.ResetSatisfiesInvariants : Prop := State.reset.Inv

/-- Every step keeps the invariants of R30. -/
def Obligations.StepKeepsInvariants : Prop :=
  ∀ s t : State, s.Inv → step s = .next t → t.Inv

/-- From a state with the invariants no run stops: every command completes, every host action is taken (R100, R210). -/
def Obligations.RunsNeverStop : Prop :=
  ∀ (k : Nat) (s : State), s.Inv → SafeFor k s

/-- A busy block completes (R100): when the turns still to be taken are taken, and the unit has had one more, the block is
idle. -/
def Obligations.BusyBlockCompletes : Prop :=
  ∀ s : State, s.Inv →
    ∃ t, core.run (s.port.turns.length + 1) s = .next t ∧ t.port.turns = [] ∧ t.block.busy = false

/-- Operand coherence (R59, R96): whatever reads and writes the host makes between acceptance and completion, the unit
completes as if there had been none; only `AERR` tells of the refused writes. The turns and `rdata` are the model's forms
(log 2, log 3). -/
def Obligations.InterleavingKeepsOutcome : Prop :=
  ∀ (s : State) (ts : List (Turn s.cfg.W)), s.Inv → s.block.busy = true → (∀ t ∈ ts, t.isHost = true) →
    ∃ (b : Block s.cfg.W) (rd : Option (Word s.cfg.W)), unitTurn s = .next (s.withBlock b)
      ∧ core.run (ts.length + 1) (s.withTurns (ts ++ [.unit]))
        = .next { cfg := s.cfg, block := { b with aerr := s.block.aerr || ts.any Turn.isWrite },
                  port := { turns := [], rdata := rd } }

/-- A running command ends by the unit's turn or by reset, and by nothing else (R92, R231). -/
def Obligations.OnlyCompletionAndResetEndACommand : Prop :=
  ∀ s t : State, s.block.busy = true → step s = .next t → t.block.busy = false →
    s.resetNext ∨ s.port.turns = [] ∨ ∃ ts, s.port.turns = .unit :: ts

/-- Operands persist (R237): a step changes an operand register only by the host's write to it while idle, by `CLR`, or by
reset. -/
def Obligations.OperandsPersist : Prop :=
  ∀ (s t : State) (r : Reg), step s = .next t → ¬ s.resetNext → ¬ s.clearNext →
    ¬ (s.block.busy = false ∧ ∃ data, s.writeNext r.addr data) →
    (t.block.get r).toNat = (s.block.get r).toNat

/-- Results are stable (R101): once `DONE` is 1, they and the fields that go with them change only by a write to `CMD`
while idle, or by reset. -/
def Obligations.ResultsStayUntilNextCommand : Prop :=
  ∀ s t : State, s.Inv → s.block.done = true → step s = .next t → ¬ s.resetNext →
    ¬ (∃ data, s.writeNext cmdAddr data) →
    t.block.res0.toNat = s.block.res0.toNat ∧ t.block.res1.toNat = s.block.res1.toNat ∧ t.block.done = true
    ∧ t.block.err = s.block.err ∧ t.block.ecode = s.block.ecode ∧ t.block.op = s.block.op

/-- What two reads of the results see (R56). On an idle block every turn but a write to `CMD` and a reset keeps both results
and leaves the block idle, so reads after the completion see one pair. A completion between the two reads gives the zero of
the running command and then the new `RES1`: there the model follows R90 and R96 against R56's wording (log 21). -/
def Obligations.ResultReadsAroundCompletion : Prop :=
  (∀ s t : State, s.block.busy = false → step s = .next t → ¬ s.resetNext → ¬ (∃ data, s.writeNext cmdAddr data) →
    t.block.busy = false ∧ t.block.res0.toNat = s.block.res0.toNat ∧ t.block.res1.toNat = s.block.res1.toNat)
  ∧ (∀ (s : State) (ts : List (Turn s.cfg.W)), s.Inv → s.block.busy = true →
      s.port.turns = .rd res0Addr :: .unit :: .rd res1Addr :: ts →
      ∃ b : Block s.cfg.W, unitTurn (s.withTurns ts) = .next ((s.withTurns ts).withBlock b)
        ∧ step s = .next ((s.withTurns (.unit :: .rd res1Addr :: ts)).withRead 0#_)
        ∧ core.run 3 s = .next (((s.withTurns ts).withBlock b).withRead b.res1))

/-- Any word written to `CMD` while idle clears both results (R238). -/
def Obligations.CommandWordClearsResults : Prop :=
  ∀ (s : State) (data : Word s.cfg.W), s.block.busy = false → s.writeNext cmdAddr data →
    ∃ t, step s = .next t ∧ t.block.res0.toNat = 0 ∧ t.block.res1.toNat = 0

/-- R214: `AERR` is set by exactly the refused writes and cleared by exactly `CLR` and reset, and it stops nothing: a
computing command takes the same step with it set. -/
def Obligations.AccessFlag : Prop :=
  (∀ s t : State, step s = .next t →
    (t.block.aerr = true ↔ s.refusedNext ∨ (s.block.aerr = true ∧ ¬ s.clearNext ∧ ¬ s.resetNext)))
  ∧ (∀ (i : Instr) (s : State), i.computing = true →
      ∃ b : Block s.cfg.W, exec i s = .next (s.withBlock b)
        ∧ exec i (s.withBlock { s.block with aerr := true }) = .next (s.withBlock { b with aerr := true }))

/-- R29: the width is a constant; `CFG` reads it as a number. -/
def Obligations.WidthNeverChanges : Prop :=
  (∀ s t : State, step s = .next t → t.cfg = s.cfg) ∧ (∀ s : State, sval (s.block.read .cfg) = s.cfg.W)

/-- A signed value written by the host reads back as that value (R9, R91). -/
def Obligations.SignedValuesRoundTrip : Prop :=
  ∀ (W : Nat) (v : Int) (b : Word W), 1 ≤ W →
    (fits W v → sval (enc W v) = v) ∧ fits W (sval b) ∧ enc W (sval b) = b
end

