-- ==== Sys2Proof/Laws/Decode.lean ====
section
/-! SUPPORT. The register map read backwards: which addresses name a place (R70). -/

namespace Sys2Proof

theorem decodeAddr_eq_operand : ∀ {addr : Addr} {r : Reg}, decodeAddr addr = .operand r → addr = r.addr := by
  intro addr r
  cases r <;> revert addr <;> decide

theorem decodeAddr_eq_cmd : ∀ {addr : Addr}, decodeAddr addr = .cmd → addr = cmdAddr := by decide

theorem decodeAddr_eq_res0 : ∀ {addr : Addr}, decodeAddr addr = .res0 → addr.toNat = 8 := by decide

theorem decodeAddr_eq_res1 : ∀ {addr : Addr}, decodeAddr addr = .res1 → addr.toNat = 9 := by decide

theorem decodeAddr_eq_status : ∀ {addr : Addr}, decodeAddr addr = .status → addr.toNat = 11 := by decide

theorem decodeAddr_eq_cfg : ∀ {addr : Addr}, decodeAddr addr = .cfg → addr.toNat = 12 := by decide

theorem decodeAddr_eq_reserved : ∀ {addr : Addr}, decodeAddr addr = .reserved → 13 ≤ addr.toNat := by decide

@[simp] theorem decodeAddr_regAddr (r : Reg) : decodeAddr r.addr = .operand r := by cases r <;> rfl

@[simp] theorem decodeAddr_cmdAddr : decodeAddr cmdAddr = .cmd := rfl

theorem Reg.toNat_addr_le (r : Reg) : r.addr.toNat ≤ 7 := by cases r <;> decide

end Sys2Proof
end

