-- ==== Sys2Proof/Laws/Operands.lean ====
section
/-! SUPPORT. The laws of signed values and of bit lengths. -/

namespace Sys2Proof.Machine

open Sys2Proof

/-! ## Bit lengths (R8) -/

/-- A number is below `2^bitlen`. -/
theorem lt_two_pow_bitlen (v : Nat) : v < 2 ^ bitlen v := by
  unfold bitlen
  split
  · subst v; simp
  · exact Nat.lt_log2_self

/-- `bitlen` is the least such exponent. -/
theorem bitlen_le {v k : Nat} (h : v < 2 ^ k) : bitlen v ≤ k := by
  unfold bitlen
  split
  · omega
  · exact (Nat.log2_lt ‹_›).2 h

/-- Halving a number takes one bit off. -/
theorem bitlen_half {v : Nat} (h : v ≠ 0) : bitlen (v / 2) + 1 = bitlen v := by
  have hv := lt_two_pow_bitlen v
  have h0 : bitlen v = v.log2 + 1 := by simp [bitlen, h]
  apply le_antisymm
  · have : bitlen (v / 2) ≤ v.log2 := by
      apply bitlen_le
      rw [h0, pow_succ] at hv
      omega
    omega
  · apply bitlen_le
    have := lt_two_pow_bitlen (v / 2)
    rw [pow_succ]
    omega

theorem bitlen_mono {v w : Nat} (h : v ≤ w) : bitlen v ≤ bitlen w :=
  bitlen_le (lt_of_le_of_lt h (lt_two_pow_bitlen w))

/-- A `k`-bit number with one digit put after it has one bit more. -/
theorem bitlen_double (k b : Nat) (hk : 1 ≤ k) (hb : b < 2) : bitlen (2 * k + b) = bitlen k + 1 := by
  rw [← bitlen_half (by omega : 2 * k + b ≠ 0)]
  congr 2
  omega

theorem bit_double_succ (k b i : Nat) (hb : b < 2) : bit (2 * k + b) (i + 1) = bit k i := by
  unfold bit
  rw [Nat.shiftRight_eq_div_pow, Nat.shiftRight_eq_div_pow, pow_succ', ← Nat.div_div_eq_div_mul]
  congr 2
  omega

theorem bit_double_zero (k b : Nat) (hb : b < 2) : bit (2 * k + b) 0 = b := by
  unfold bit
  simp
  omega

/-! ## Signed values (R9) -/

/-- The signed value of a string is Lean's two's complement value of it. -/
theorem sval_eq_toInt {W : Nat} (hW : 1 ≤ W) (b : Word W) : sval b = b.toInt := by
  unfold sval
  rw [BitVec.toInt_eq_toNat_cond]
  have h : 2 ^ W = 2 * 2 ^ (W - 1) := by rw [← pow_succ', Nat.sub_add_cancel hW]
  push_cast
  split <;> split <;> omega

/-- `enc` inverts `sval` on the values that fit. -/
theorem sval_enc_of_fits {W : Nat} (hW : 1 ≤ W) {v : Int} (h : fits W v) : sval (enc W v) = v := by
  obtain ⟨W, rfl⟩ : ∃ k, W = k + 1 := ⟨W - 1, by omega⟩
  rw [sval_eq_toInt hW, enc, BitVec.toInt_ofInt]
  have h2 : ((2 ^ (W + 1) : Nat) : Int) = 2 * 2 ^ W := by push_cast; ring
  obtain ⟨h0, h1⟩ := h
  rw [Nat.add_sub_cancel] at h0 h1
  rw [Int.bmod_eq_of_le] <;> omega

/-- A value below `2^(W-1)` and not negative has the top bit zero. -/
theorem toNat_enc_of_nonneg {W : Nat} (hW : 1 ≤ W) {v : Int} (h0 : 0 ≤ v) (h1 : v < 2 ^ (W - 1)) :
    (enc W v).toNat = v.toNat := by
  have h2 : (2 : Int) ^ (W - 1) ≤ 2 ^ W := by gcongr <;> omega
  rw [enc, BitVec.toNat_ofInt]
  push_cast
  rw [Int.emod_eq_of_lt h0 (by omega)]

@[simp] theorem enc_zero (W : Nat) : enc W 0 = 0#W := by
  apply BitVec.eq_of_toInt_eq
  simp [enc]

end Sys2Proof.Machine
end

