-- ==== Sys2Proof/Laws/Jacobi.lean ====
section
/-! SUPPORT. The laws of the Jacobi engine: its three tables are those of number theory, and its passes suffice. -/

namespace Sys2Proof.Machine

open Sys2Proof

theorem jacobiTwo_eq {n : Nat} (h : n % 2 = 1) : jacobiTwo n = jacobiSym 2 n := by
  rw [jacobiSym.at_two (Nat.odd_iff.2 h), ZMod.χ₈_nat_eq_if_mod_eight]
  unfold jacobiTwo
  rw [if_neg (show ¬ n % 2 = 0 by omega)]
  split <;> split <;> first | rfl | omega

theorem jacobiSgn_eq {n : Nat} (h : n % 2 = 1) (a : Int) : jacobiSgn n * jacobiSym a n = jacobiSym (-a) n := by
  rw [jacobiSym.neg a (Nat.odd_iff.2 h), ZMod.χ₄_nat_eq_if_mod_four]
  unfold jacobiSgn
  rw [if_neg (show ¬ n % 2 = 0 by omega)]
  congr 1
  split <;> split <;> first | rfl | omega

theorem jacobiFlip_eq {a n : Nat} (ha : a % 2 = 1) (hn : n % 2 = 1) :
    jacobiFlip a n * jacobiSym n a = jacobiSym a n := by
  rw [← jacobiSym.quadratic_reciprocity_if ha hn]
  unfold jacobiFlip
  split <;> split <;> first | (exfalso; omega) | simp

/-- What is left of the engine's passes on `(a, n)`: every pass makes it less (R138). -/
def jacobiMeasure (a n : Nat) : Nat := 2 * (bitlen a + bitlen n) + (if a < n then 1 else 0)

/-- With passes enough for a non-negative `a`, the engine gives the sign times the symbol (R135, R138). -/
theorem jacobiLoop_nat : ∀ (passes a n : Nat) (t : Int), n % 2 = 1 → jacobiMeasure a n < passes →
    jacobiLoop passes a n t = t * jacobiSym a n
  | 0, a, n, t, hn, h => by omega
  | passes + 1, a, n, t, hn, h => by
    rw [jacobiLoop]
    by_cases h1 : n = 1
    · subst h1; simp
    rw [if_neg (by omega)]
    by_cases a0 : a = 0
    · subst a0
      rw [if_pos (by simp), Nat.cast_zero, jacobiSym.zero_left (by omega), mul_zero]
    rw [if_neg (by omega)]
    by_cases a1 : a = 1
    · subst a1; simp
    rw [if_neg (by omega)]
    by_cases a2 : a = 2
    · subst a2; rw [if_pos (by simp), jacobiTwo_eq hn]; rfl
    rw [if_neg (by omega), if_neg (by omega)]
    by_cases ev : a % 2 = 0
    · rw [if_pos (by omega)]
      have : ((a : Int) / 2) = ((a / 2 : Nat) : Int) := by push_cast; rfl
      rw [this, jacobiLoop_nat passes _ _ _ hn, jacobiTwo_eq hn, mul_assoc, ← jacobiSym.mul_left]
      · congr 2; omega
      · have := bitlen_half a0
        unfold jacobiMeasure at *
        split at h <;> split <;> omega
    rw [if_neg (by omega)]
    by_cases ge : n ≤ a
    · rw [if_pos (by omega)]
      have : ((a : Int) % n) = ((a % n : Nat) : Int) := by push_cast; rfl
      rw [this, jacobiLoop_nat passes _ _ _ hn]
      · rw [← this, ← jacobiSym.mod_left]
      · have h3 : a % n < n := Nat.mod_lt _ (by omega)
        have h4 : a % n ≤ a / 2 := by
          have := Nat.div_add_mod a n
          have h5 : 1 ≤ a / n := (Nat.one_le_div_iff (by omega)).2 ge
          have : n * 1 ≤ n * (a / n) := Nat.mul_le_mul_left _ h5
          omega
        have h5 := bitlen_mono h4
        have h6 := bitlen_half a0
        unfold jacobiMeasure at *
        rw [if_neg (by omega)] at h
        rw [if_pos h3]
        omega
    · rw [if_neg (by omega), jacobiLoop_nat passes _ _ _ (by omega), mul_assoc, jacobiFlip_eq (by omega) hn]
      unfold jacobiMeasure at *
      rw [if_pos (by omega)] at h
      rw [if_neg (by omega)]
      omega

end Sys2Proof.Machine
end

