-- ==== Sys2Proof/Laws/ModExp.lean ====
section
/-! SUPPORT. The laws of binary exponentiation. -/

namespace Sys2Proof.Machine

open Sys2Proof

/-- The loop gives the power of its running square, times the accumulator (R113). -/
theorem modExpLoop_eq (m : Int) : ∀ (passes : Nat) (acc sq : Int) (e : Nat), e < 2 ^ passes → e ≠ 0 →
    modExpLoop m passes acc sq e = acc * sq ^ e % m
  | 0, acc, sq, e, h, h0 => by simp at h; omega
  | passes + 1, acc, sq, e, h, h0 => by
    rw [modExpLoop, if_neg h0]
    have hacc : ∀ e' : Nat, (if e % 2 = 1 then acc * sq % m else acc) * (sq * sq % m) ^ e' % m
        = acc * sq ^ (e % 2 + 2 * e') % m := by
      intro e'
      have hsq : (sq * sq % m) ^ e' ≡ (sq * sq) ^ e' [ZMOD m] := (Int.mod_modEq _ _).pow _
      rcases Nat.mod_two_eq_zero_or_one e with h2 | h2
      · simp only [h2, zero_add, pow_mul]
        rw [if_neg (by omega)]
        refine (hsq.mul_left acc).trans ?_
        rw [sq_eq]
      · simp only [h2, pow_add, pow_mul, pow_one]
        rw [if_pos trivial]
        refine ((Int.mod_modEq _ _).mul hsq).trans ?_
        rw [sq_eq]
        ring_nf; rfl
    by_cases h1 : e / 2 = 0
    · have e1 : e = 1 := by omega
      subst e1
      have : ∀ p a q, modExpLoop m p a q (1 / 2) = a := by intro p a q; cases p <;> simp [modExpLoop]
      rw [this]
      simp
    · rw [modExpLoop_eq m passes _ _ _ (by rw [pow_succ] at h; omega) h1, hacc]
      congr 3
      omega
where sq_eq {x : Int} {e' : Nat} : (x*x)^e' = (x^2)^e' := by ring

/-- `ModExp` by binary exponentiation is `ModExp` by its definition (R111, R113). -/
theorem modExp_eq_refModExp {b e m : Int} (he : 0 ≤ e) : modExp b e m = refModExp b e m := by
  unfold modExp refModExp
  by_cases h0 : e = 0
  · subst h0; simp [bitlen, modExpLoop]
  · rw [modExpLoop_eq m _ _ _ _ (lt_two_pow_bitlen _) (by omega), if_neg h0, one_mul]
    exact (Int.mod_modEq b m).pow _

/-- `ModExp` depends on the base by its residue (R115). -/
theorem modExp_congr {b b' e m : Int} (h : b ≡ b' [ZMOD m]) : modExp b e m = modExp b' e m := by
  unfold modExp; rw [h]

end Sys2Proof.Machine
end

