-- ==== Sys2Proof/Laws/Lucas.lean ====
section
/-! SUPPORT. The laws of the Lucas unit: the scan digit by digit, the subscript, the halving, the range. -/

namespace Sys2Proof.Machine

open Sys2Proof

/-- What the scan does for the digit `b` (R151). -/
def lucasDigit (n p q d : Int) (b : Nat) (x : LucasPair) : LucasPair :=
  if b = 1 then lucasStep n p d (lucasDouble n q x) else lucasDouble n q x

/-- The scan of one more digit is the scan before it and then that digit. -/
theorem lucasScan_double (k b : Nat) (hb : b < 2) (n p q d : Int) : ∀ (i : Nat) (x : LucasPair),
    lucasScan (2 * k + b) n p q d (i + 1) x = lucasDigit n p q d b (lucasScan k n p q d i x)
  | 0, x => by simp [lucasScan, bit_double_zero k b hb, lucasDigit]
  | i + 1, x => by
    rw [lucasScan, lucasScan_double k b hb n p q d i, bit_double_succ k b i hb]
    rfl

/-- For `k = 1` the loop does not run (R151, R161). -/
theorem lucasAdv_one (n u v p q d : Int) : lucasAdv 1 n u v p q d = { U := u % n, V := v % n, sub := 1 } := by
  have h : bitlen (Int.toNat 1) - 1 = 0 := by decide
  rw [lucasAdv, h, lucasScan]

/-- A digit put after `k` is one more pass. -/
theorem lucasAdv_double {k : Int} (b : Nat) (hk : 1 ≤ k) (hb : b < 2) (n u v p q d : Int) :
    lucasAdv (2 * k + b) n u v p q d = lucasDigit n p q d b (lucasAdv k n u v p q d) := by
  obtain ⟨k, rfl⟩ := Int.eq_ofNat_of_zero_le (by omega : 0 ≤ k)
  unfold lucasAdv
  have h1 : (2 * (k : Int) + b).toNat = 2 * k + b := by omega
  have h2 : 1 ≤ bitlen k := by rw [bitlen, if_neg (by omega)]; omega
  rw [h1, Int.toNat_natCast, bitlen_double k b (by omega) hb,
    show bitlen k + 1 - 1 = (bitlen k - 1) + 1 by omega, lucasScan_double k b hb]

/-- Induction on the binary digits of a positive integer, from the top. -/
theorem lucas_induction {motive : (k : Int) → 1 ≤ k → Prop} (one : motive 1 le_rfl)
    (double : ∀ (k : Int) (b : Nat) (hk : 1 ≤ k) (_ : b < 2), motive k hk → motive (2 * k + b) (by omega)) :
    ∀ (k : Int) (hk : 1 ≤ k), motive k hk := by
  intro k hk
  obtain ⟨m, rfl⟩ := Int.eq_ofNat_of_zero_le (by omega : 0 ≤ k)
  induction m using Nat.strong_induction_on with
  | _ m ih =>
    by_cases h1 : m = 1
    · subst h1; exact one
    · have := double ((m / 2 : Nat) : Int) (m % 2) (by omega) (by omega) (ih (m / 2) (by omega) (by omega))
      convert this using 1; omega

/-- On return the subscript is `k` (R151). -/
theorem lucasAdv_sub {k : Int} (hk : 1 ≤ k) (n u v p q d : Int) : (lucasAdv k n u v p q d).sub = k := by
  induction k, hk using lucas_induction with
  | one => rw [lucasAdv_one]
  | double k b hk hb ih =>
    rw [lucasAdv_double b hk hb]
    unfold lucasDigit
    split <;> simp [lucasStep, lucasDouble, ih] <;> omega

/-- The half of R154 is a half modulo an odd `n`. -/
theorem lucasHalve_modEq {n : Int} (hn : n % 2 = 1) (t : Int) : 2 * lucasHalve n t ≡ t [ZMOD n] := by
  unfold lucasHalve
  refine ((Int.mod_modEq _ n).mul_left 2).trans ?_
  split
  · rw [Int.mul_ediv_cancel' (by omega)]
    simp [Int.ModEq]
  · rw [Int.mul_ediv_cancel' (by omega)]

/-- The working pair stays in `[0, n)` (R158). -/
theorem lucasDigit_range {n p q d : Int} (hn : 1 ≤ n) (b : Nat) (x : LucasPair) :
    0 ≤ (lucasDigit n p q d b x).U ∧ (lucasDigit n p q d b x).U < n ∧ 0 ≤ (lucasDigit n p q d b x).V ∧ (lucasDigit n p q d b x).V < n := by
  have h : ∀ t : Int, 0 ≤ t % n ∧ t % n < n := fun t => ⟨Int.emod_nonneg _ (by omega), Int.emod_lt_of_pos _ (by omega)⟩
  unfold lucasDigit
  split
  · exact ⟨(h _).1, (h _).2, (h _).1, (h _).2⟩
  · exact ⟨(h _).1, (h _).2, (h _).1, (h _).2⟩

end Sys2Proof.Machine
end

