-- ==== Sys2Proof/Laws/MrTest.lean ====
section
/-! SUPPORT. The laws of the Miller-Rabin unit's three loops, and of stage 2. -/

namespace Sys2Proof.Machine

open Sys2Proof

/-- The decomposition `d * 2^t` with `d` odd (R174). -/
theorem splitTwos_spec : ∀ (passes : Nat) (d : Int) (s : Nat), 0 < d → d < 2 ^ passes →
    ∃ t, (splitTwos passes d s).2 = s + t ∧ d = (splitTwos passes d s).1 * 2 ^ t ∧ (splitTwos passes d s).1 % 2 = 1
  | 0, d, s, h0, h => by simp at h; omega
  | passes + 1, d, s, h0, h => by
    rw [splitTwos]
    split
    · exact ⟨0, rfl, by simp, ‹_›⟩
    · obtain ⟨t, h1, h2, h3⟩ := splitTwos_spec passes (d / 2) (s + 1) (by omega) (by rw [pow_succ] at h; omega)
      refine ⟨t + 1, by omega, ?_, h3⟩
      rw [pow_succ, ← mul_assoc, ← h2]; omega

/-- The squarings pass when one of them meets `c - 1`; an early 1 changes nothing (R174). -/
theorem witnessLoop_iff {c : Int} (hc : 2 < c) : ∀ (r : Nat) (x : Int),
    witnessLoop c r x = true ↔ ∃ j, j < r ∧ x ^ 2 ^ (j + 1) % c = c - 1
  | 0, x => by simp [witnessLoop]
  | r + 1, x => by
    have hx : x * x % c ≡ x ^ 2 [ZMOD c] := by rw [sq]; exact Int.mod_modEq _ _
    have hp : ∀ j, (x * x % c) ^ 2 ^ (j + 1) % c = x ^ 2 ^ (j + 1 + 1) % c := by
      intro j
      have := hx.pow (2 ^ (j + 1))
      rw [← pow_mul, ← pow_succ'] at this
      exact this
    rw [witnessLoop]
    split
    · rename_i h
      simp only [true_iff]
      exact ⟨0, by omega, by rw [zero_add, pow_one, sq]; exact h⟩
    · rename_i h
      split
      · rename_i h1
        simp only [Bool.false_eq_true, false_iff, not_exists, not_and]
        intro j hj he
        cases j with
        | zero => rw [zero_add, pow_one, sq] at he; exact h he
        | succ j =>
          rw [← hp j, h1, one_pow] at he
          rw [Int.emod_eq_of_lt (by omega) (by omega)] at he
          omega
      · rw [witnessLoop_iff hc r]
        constructor
        · rintro ⟨j, hj, he⟩
          exact ⟨j + 1, by omega, by rw [← hp j]; exact he⟩
        · rintro ⟨j, hj, he⟩
          cases j with
          | zero => rw [zero_add, pow_one, sq] at he; exact absurd he h
          | succ j => exact ⟨j, by omega, by rw [hp j]; exact he⟩

/-- The bisection gives the integer square root (R177). -/
theorem rootLoop_spec (c : Int) : ∀ (i : Nat) (r : Int), 0 ≤ r → r * r ≤ c → c < (r + 2 ^ i) * (r + 2 ^ i) →
    0 ≤ rootLoop c i r ∧ rootLoop c i r * rootLoop c i r ≤ c ∧ c < (rootLoop c i r + 1) * (rootLoop c i r + 1)
  | 0, r, h0, h1, h2 => ⟨h0, h1, by simpa [rootLoop] using h2⟩
  | i + 1, r, h0, h1, h2 => by
    have hp : (0 : Int) < 2 ^ i := by positivity
    rw [rootLoop]
    split
    · exact rootLoop_spec c i _ (by omega) ‹_› (by rw [pow_succ] at h2; rw [add_assoc, ← mul_two]; exact h2)
    · exact rootLoop_spec c i _ h0 h1 (by omega)

/-- The odd part and the power of two of a number are its own. -/
theorem odd_part_unique {d s d' s' : Nat} (h : d * 2 ^ s = d' * 2 ^ s') (hd : d % 2 = 1) (hd' : d' % 2 = 1) :
    d = d' ∧ s = s' := by
  induction s generalizing s' with
  | zero =>
    cases s' with
    | zero => simp at h; exact ⟨h, rfl⟩
    | succ s' => rw [pow_succ, ← mul_assoc] at h; simp at h; omega
  | succ s ih =>
    cases s' with
    | zero => rw [pow_succ, ← mul_assoc] at h; simp at h; omega
    | succ s' =>
      have := ih (s' := s') (by rw [pow_succ, pow_succ, ← mul_assoc, ← mul_assoc] at h; omega)
      exact ⟨this.1, by omega⟩

/-- Stage 2 is the Miller-Rabin test to base 2 (R174). -/
theorem millerRabin_iff {c : Int} (hc : 2 < c) : millerRabin c = true ↔ passesBaseTwo c := by
  have hlt : c - 1 < 2 ^ bitlen (c - 1).toNat := by
    have := lt_two_pow_bitlen (c - 1).toNat
    have h2 : ((c - 1).toNat : Int) < ((2 ^ bitlen (c - 1).toNat : Nat) : Int) := by exact_mod_cast this
    push_cast at h2; omega
  obtain ⟨t, h1, h2, h3⟩ := splitTwos_spec _ (c - 1) 0 (by omega) hlt
  unfold millerRabin
  generalize splitTwos (bitlen (c - 1).toNat) (c - 1) 0 = r at *
  obtain ⟨d, s⟩ := r
  simp only [zero_add] at h1 h2 h3 ⊢
  subst h1
  have hd0 : 0 ≤ d := by
    by_contra hneg
    have : d * 2 ^ s ≤ 0 := mul_nonpos_of_nonpos_of_nonneg (by omega) (by positivity)
    omega
  obtain ⟨d, rfl⟩ := Int.eq_ofNat_of_zero_le hd0
  have hx : modExp 2 d c = 2 ^ d % c := by
    rw [modExp_eq_refModExp (by omega), refModExp, if_neg (by omega), Int.toNat_natCast]
  rw [hx]
  have hpow : ∀ j, ((2 : Int) ^ d % c) ^ 2 ^ (j + 1) % c = 2 ^ (d * 2 ^ (j + 1)) % c := by
    intro j
    have := (Int.mod_modEq ((2 : Int) ^ d) c).pow (2 ^ (j + 1))
    rw [← pow_mul] at this
    exact this
  have uniq : passesBaseTwo c ↔ ((2 : Int) ^ d % c = 1 ∨ ∃ r, r < s ∧ (2 : Int) ^ (d * 2 ^ r) % c = c - 1) := by
    constructor
    · rintro ⟨d', s', e1, e2, e3⟩
      have : d * 2 ^ s = d' * 2 ^ s' := by
        have : ((d * 2 ^ s : Nat) : Int) = ((d' * 2 ^ s' : Nat) : Int) := by push_cast; rw [← h2, ← e1]
        exact_mod_cast this
      obtain ⟨rfl, rfl⟩ := odd_part_unique this (by omega) e2
      exact e3
    · intro e3
      exact ⟨d, s, h2, by omega, e3⟩
  rw [uniq]
  have hs : s = 0 → c - 1 = d := by rintro rfl; simpa using h2
  split
  · rename_i h
    simp only [true_iff]
    rcases h with h | h
    · exact .inl h
    · rcases Nat.eq_zero_or_pos s with h0 | h0
      · exfalso
        have hcd := hs h0
        have he : (2 : Int) ∣ c := by omega
        have : (2 : Int) ^ d % c % 2 = 0 := by
          rw [Int.emod_emod_of_dvd _ he]
          have : d ≠ 0 := by omega
          obtain ⟨k, rfl⟩ := Nat.exists_eq_succ_of_ne_zero this
          rw [pow_succ]; simp
        omega
      · exact .inr ⟨0, h0, by simpa using h⟩
  · rename_i h
    rw [not_or] at h
    rw [witnessLoop_iff hc]
    constructor
    · rintro ⟨j, hj, he⟩
      exact .inr ⟨j + 1, by omega, by rw [← hpow j]; exact he⟩
    · rintro (h' | ⟨j, hj, he⟩)
      · exact absurd h' h.1
      · cases j with
        | zero => exact absurd (by simpa using he) h.2
        | succ j => exact ⟨j, by omega, by rw [hpow j]; exact he⟩

end Sys2Proof.Machine
end

