-- ==== Sys2Proof/Laws/State.lean ====
section
/-! SUPPORT. One lemma per field of the state and of the block for each update, so that no proof unfolds an update. -/

namespace Sys2Proof.Machine

open Sys2Proof

/-! ## The three updates of the state -/

@[simp] theorem State.withBlock_cfg (s : State) (b : Block s.cfg.W) :
    (s.withBlock b).cfg = s.cfg := rfl
@[simp] theorem State.withBlock_block (s : State) (b : Block s.cfg.W) :
    (s.withBlock b).block = b := rfl
@[simp] theorem State.withBlock_port (s : State) (b : Block s.cfg.W) :
    (s.withBlock b).port = s.port := rfl
@[simp] theorem State.withBlock_withBlock (s : State) (b : Block s.cfg.W) (c : Block s.cfg.W) :
    (s.withBlock b).withBlock c = s.withBlock c := rfl
@[simp] theorem State.withTurns_cfg (s : State) (ts : List (Turn s.cfg.W)) :
    (s.withTurns ts).cfg = s.cfg := rfl
@[simp] theorem State.withTurns_block (s : State) (ts : List (Turn s.cfg.W)) :
    (s.withTurns ts).block = s.block := rfl
@[simp] theorem State.withTurns_turns (s : State) (ts : List (Turn s.cfg.W)) :
    (s.withTurns ts).port.turns = ts := rfl
@[simp] theorem State.withTurns_rdata (s : State) (ts : List (Turn s.cfg.W)) :
    (s.withTurns ts).port.rdata = s.port.rdata := rfl
@[simp] theorem State.withTurns_withTurns (s : State) (ts : List (Turn s.cfg.W)) (us : List (Turn s.cfg.W)) :
    (s.withTurns ts).withTurns us = s.withTurns us := rfl
@[simp] theorem State.withTurns_self (s : State) :
    s.withTurns s.port.turns = s := rfl
@[simp] theorem State.withBlock_self (s : State) :
    s.withBlock s.block = s := rfl
@[simp] theorem State.withRead_cfg (s : State) (v : Word s.cfg.W) :
    (s.withRead v).cfg = s.cfg := rfl
@[simp] theorem State.withRead_block (s : State) (v : Word s.cfg.W) :
    (s.withRead v).block = s.block := rfl
@[simp] theorem State.withRead_turns (s : State) (v : Word s.cfg.W) :
    (s.withRead v).port.turns = s.port.turns := rfl
@[simp] theorem State.withRead_rdata (s : State) (v : Word s.cfg.W) :
    (s.withRead v).port.rdata = some v := rfl

/-! ## The updates of the block -/

@[simp] theorem Block.refuseWrite_n {W : Nat} (b : Block W) :
    (b.refuseWrite).n = b.n := rfl
@[simp] theorem Block.refuseWrite_a {W : Nat} (b : Block W) :
    (b.refuseWrite).a = b.a := rfl
@[simp] theorem Block.refuseWrite_e {W : Nat} (b : Block W) :
    (b.refuseWrite).e = b.e := rfl
@[simp] theorem Block.refuseWrite_u0 {W : Nat} (b : Block W) :
    (b.refuseWrite).u0 = b.u0 := rfl
@[simp] theorem Block.refuseWrite_v0 {W : Nat} (b : Block W) :
    (b.refuseWrite).v0 = b.v0 := rfl
@[simp] theorem Block.refuseWrite_p {W : Nat} (b : Block W) :
    (b.refuseWrite).p = b.p := rfl
@[simp] theorem Block.refuseWrite_q {W : Nat} (b : Block W) :
    (b.refuseWrite).q = b.q := rfl
@[simp] theorem Block.refuseWrite_d {W : Nat} (b : Block W) :
    (b.refuseWrite).d = b.d := rfl
@[simp] theorem Block.refuseWrite_res0 {W : Nat} (b : Block W) :
    (b.refuseWrite).res0 = b.res0 := rfl
@[simp] theorem Block.refuseWrite_res1 {W : Nat} (b : Block W) :
    (b.refuseWrite).res1 = b.res1 := rfl
@[simp] theorem Block.refuseWrite_busy {W : Nat} (b : Block W) :
    (b.refuseWrite).busy = b.busy := rfl
@[simp] theorem Block.refuseWrite_done {W : Nat} (b : Block W) :
    (b.refuseWrite).done = b.done := rfl
@[simp] theorem Block.refuseWrite_err {W : Nat} (b : Block W) :
    (b.refuseWrite).err = b.err := rfl
@[simp] theorem Block.refuseWrite_aerr {W : Nat} (b : Block W) :
    (b.refuseWrite).aerr = true := rfl
@[simp] theorem Block.refuseWrite_ecode {W : Nat} (b : Block W) :
    (b.refuseWrite).ecode = b.ecode := rfl
@[simp] theorem Block.refuseWrite_op {W : Nat} (b : Block W) :
    (b.refuseWrite).op = b.op := rfl
@[simp] theorem Block.accept_n {W : Nat} (b : Block W) (code : Nat) :
    (b.accept code).n = b.n := rfl
@[simp] theorem Block.accept_a {W : Nat} (b : Block W) (code : Nat) :
    (b.accept code).a = b.a := rfl
@[simp] theorem Block.accept_e {W : Nat} (b : Block W) (code : Nat) :
    (b.accept code).e = b.e := rfl
@[simp] theorem Block.accept_u0 {W : Nat} (b : Block W) (code : Nat) :
    (b.accept code).u0 = b.u0 := rfl
@[simp] theorem Block.accept_v0 {W : Nat} (b : Block W) (code : Nat) :
    (b.accept code).v0 = b.v0 := rfl
@[simp] theorem Block.accept_p {W : Nat} (b : Block W) (code : Nat) :
    (b.accept code).p = b.p := rfl
@[simp] theorem Block.accept_q {W : Nat} (b : Block W) (code : Nat) :
    (b.accept code).q = b.q := rfl
@[simp] theorem Block.accept_d {W : Nat} (b : Block W) (code : Nat) :
    (b.accept code).d = b.d := rfl
@[simp] theorem Block.accept_res0 {W : Nat} (b : Block W) (code : Nat) :
    (b.accept code).res0 = enc W 0 := rfl
@[simp] theorem Block.accept_res1 {W : Nat} (b : Block W) (code : Nat) :
    (b.accept code).res1 = enc W 0 := rfl
@[simp] theorem Block.accept_busy {W : Nat} (b : Block W) (code : Nat) :
    (b.accept code).busy = true := rfl
@[simp] theorem Block.accept_done {W : Nat} (b : Block W) (code : Nat) :
    (b.accept code).done = false := rfl
@[simp] theorem Block.accept_err {W : Nat} (b : Block W) (code : Nat) :
    (b.accept code).err = false := rfl
@[simp] theorem Block.accept_aerr {W : Nat} (b : Block W) (code : Nat) :
    (b.accept code).aerr = b.aerr := rfl
@[simp] theorem Block.accept_ecode {W : Nat} (b : Block W) (code : Nat) :
    (b.accept code).ecode = ecodeNone := rfl
@[simp] theorem Block.accept_op {W : Nat} (b : Block W) (code : Nat) :
    (b.accept code).op = BitVec.ofNat 4 code := rfl
@[simp] theorem Block.raiseInvalidDomain_n {W : Nat} (b : Block W) :
    (b.raiseInvalidDomain).n = b.n := rfl
@[simp] theorem Block.raiseInvalidDomain_a {W : Nat} (b : Block W) :
    (b.raiseInvalidDomain).a = b.a := rfl
@[simp] theorem Block.raiseInvalidDomain_e {W : Nat} (b : Block W) :
    (b.raiseInvalidDomain).e = b.e := rfl
@[simp] theorem Block.raiseInvalidDomain_u0 {W : Nat} (b : Block W) :
    (b.raiseInvalidDomain).u0 = b.u0 := rfl
@[simp] theorem Block.raiseInvalidDomain_v0 {W : Nat} (b : Block W) :
    (b.raiseInvalidDomain).v0 = b.v0 := rfl
@[simp] theorem Block.raiseInvalidDomain_p {W : Nat} (b : Block W) :
    (b.raiseInvalidDomain).p = b.p := rfl
@[simp] theorem Block.raiseInvalidDomain_q {W : Nat} (b : Block W) :
    (b.raiseInvalidDomain).q = b.q := rfl
@[simp] theorem Block.raiseInvalidDomain_d {W : Nat} (b : Block W) :
    (b.raiseInvalidDomain).d = b.d := rfl
@[simp] theorem Block.raiseInvalidDomain_res0 {W : Nat} (b : Block W) :
    (b.raiseInvalidDomain).res0 = b.res0 := rfl
@[simp] theorem Block.raiseInvalidDomain_res1 {W : Nat} (b : Block W) :
    (b.raiseInvalidDomain).res1 = b.res1 := rfl
@[simp] theorem Block.raiseInvalidDomain_busy {W : Nat} (b : Block W) :
    (b.raiseInvalidDomain).busy = false := rfl
@[simp] theorem Block.raiseInvalidDomain_done {W : Nat} (b : Block W) :
    (b.raiseInvalidDomain).done = true := rfl
@[simp] theorem Block.raiseInvalidDomain_err {W : Nat} (b : Block W) :
    (b.raiseInvalidDomain).err = true := rfl
@[simp] theorem Block.raiseInvalidDomain_aerr {W : Nat} (b : Block W) :
    (b.raiseInvalidDomain).aerr = b.aerr := rfl
@[simp] theorem Block.raiseInvalidDomain_ecode {W : Nat} (b : Block W) :
    (b.raiseInvalidDomain).ecode = ecodeInvalidDomain := rfl
@[simp] theorem Block.raiseInvalidDomain_op {W : Nat} (b : Block W) :
    (b.raiseInvalidDomain).op = b.op := rfl
@[simp] theorem Block.raiseIllegalCommand_n {W : Nat} (b : Block W) (c : Word W) :
    (b.raiseIllegalCommand c).n = b.n := rfl
@[simp] theorem Block.raiseIllegalCommand_a {W : Nat} (b : Block W) (c : Word W) :
    (b.raiseIllegalCommand c).a = b.a := rfl
@[simp] theorem Block.raiseIllegalCommand_e {W : Nat} (b : Block W) (c : Word W) :
    (b.raiseIllegalCommand c).e = b.e := rfl
@[simp] theorem Block.raiseIllegalCommand_u0 {W : Nat} (b : Block W) (c : Word W) :
    (b.raiseIllegalCommand c).u0 = b.u0 := rfl
@[simp] theorem Block.raiseIllegalCommand_v0 {W : Nat} (b : Block W) (c : Word W) :
    (b.raiseIllegalCommand c).v0 = b.v0 := rfl
@[simp] theorem Block.raiseIllegalCommand_p {W : Nat} (b : Block W) (c : Word W) :
    (b.raiseIllegalCommand c).p = b.p := rfl
@[simp] theorem Block.raiseIllegalCommand_q {W : Nat} (b : Block W) (c : Word W) :
    (b.raiseIllegalCommand c).q = b.q := rfl
@[simp] theorem Block.raiseIllegalCommand_d {W : Nat} (b : Block W) (c : Word W) :
    (b.raiseIllegalCommand c).d = b.d := rfl
@[simp] theorem Block.raiseIllegalCommand_res0 {W : Nat} (b : Block W) (c : Word W) :
    (b.raiseIllegalCommand c).res0 = enc W 0 := rfl
@[simp] theorem Block.raiseIllegalCommand_res1 {W : Nat} (b : Block W) (c : Word W) :
    (b.raiseIllegalCommand c).res1 = enc W 0 := rfl
@[simp] theorem Block.raiseIllegalCommand_busy {W : Nat} (b : Block W) (c : Word W) :
    (b.raiseIllegalCommand c).busy = b.busy := rfl
@[simp] theorem Block.raiseIllegalCommand_done {W : Nat} (b : Block W) (c : Word W) :
    (b.raiseIllegalCommand c).done = true := rfl
@[simp] theorem Block.raiseIllegalCommand_err {W : Nat} (b : Block W) (c : Word W) :
    (b.raiseIllegalCommand c).err = true := rfl
@[simp] theorem Block.raiseIllegalCommand_aerr {W : Nat} (b : Block W) (c : Word W) :
    (b.raiseIllegalCommand c).aerr = b.aerr := rfl
@[simp] theorem Block.raiseIllegalCommand_ecode {W : Nat} (b : Block W) (c : Word W) :
    (b.raiseIllegalCommand c).ecode = ecodeIllegalCommand := rfl
@[simp] theorem Block.raiseIllegalCommand_op {W : Nat} (b : Block W) (c : Word W) :
    (b.raiseIllegalCommand c).op = BitVec.ofNat 4 c.toNat := rfl
@[simp] theorem Block.complete_invalidDomain {W : Nat} (b : Block W) :
    b.complete .invalidDomain = b.raiseInvalidDomain := rfl
@[simp] theorem Block.complete_results_n {W : Nat} (b : Block W) (x y : Int) :
    (b.complete (.results x y)).n = b.n := rfl
@[simp] theorem Block.complete_results_a {W : Nat} (b : Block W) (x y : Int) :
    (b.complete (.results x y)).a = b.a := rfl
@[simp] theorem Block.complete_results_e {W : Nat} (b : Block W) (x y : Int) :
    (b.complete (.results x y)).e = b.e := rfl
@[simp] theorem Block.complete_results_u0 {W : Nat} (b : Block W) (x y : Int) :
    (b.complete (.results x y)).u0 = b.u0 := rfl
@[simp] theorem Block.complete_results_v0 {W : Nat} (b : Block W) (x y : Int) :
    (b.complete (.results x y)).v0 = b.v0 := rfl
@[simp] theorem Block.complete_results_p {W : Nat} (b : Block W) (x y : Int) :
    (b.complete (.results x y)).p = b.p := rfl
@[simp] theorem Block.complete_results_q {W : Nat} (b : Block W) (x y : Int) :
    (b.complete (.results x y)).q = b.q := rfl
@[simp] theorem Block.complete_results_d {W : Nat} (b : Block W) (x y : Int) :
    (b.complete (.results x y)).d = b.d := rfl
@[simp] theorem Block.complete_results_res0 {W : Nat} (b : Block W) (x y : Int) :
    (b.complete (.results x y)).res0 = enc W x := rfl
@[simp] theorem Block.complete_results_res1 {W : Nat} (b : Block W) (x y : Int) :
    (b.complete (.results x y)).res1 = enc W y := rfl
@[simp] theorem Block.complete_results_busy {W : Nat} (b : Block W) (x y : Int) :
    (b.complete (.results x y)).busy = false := rfl
@[simp] theorem Block.complete_results_done {W : Nat} (b : Block W) (x y : Int) :
    (b.complete (.results x y)).done = true := rfl
@[simp] theorem Block.complete_results_err {W : Nat} (b : Block W) (x y : Int) :
    (b.complete (.results x y)).err = b.err := rfl
@[simp] theorem Block.complete_results_aerr {W : Nat} (b : Block W) (x y : Int) :
    (b.complete (.results x y)).aerr = b.aerr := rfl
@[simp] theorem Block.complete_results_ecode {W : Nat} (b : Block W) (x y : Int) :
    (b.complete (.results x y)).ecode = b.ecode := rfl
@[simp] theorem Block.complete_results_op {W : Nat} (b : Block W) (x y : Int) :
    (b.complete (.results x y)).op = b.op := rfl
@[simp] theorem Block.clear_eq {W : Nat} (b : Block W) : b.clear = Block.atReset W := rfl
@[simp] theorem Block.atReset_n (W : Nat) :
    (Block.atReset W).n = 0#W := rfl
@[simp] theorem Block.atReset_a (W : Nat) :
    (Block.atReset W).a = 0#W := rfl
@[simp] theorem Block.atReset_e (W : Nat) :
    (Block.atReset W).e = 0#W := rfl
@[simp] theorem Block.atReset_u0 (W : Nat) :
    (Block.atReset W).u0 = 0#W := rfl
@[simp] theorem Block.atReset_v0 (W : Nat) :
    (Block.atReset W).v0 = 0#W := rfl
@[simp] theorem Block.atReset_p (W : Nat) :
    (Block.atReset W).p = 0#W := rfl
@[simp] theorem Block.atReset_q (W : Nat) :
    (Block.atReset W).q = 0#W := rfl
@[simp] theorem Block.atReset_d (W : Nat) :
    (Block.atReset W).d = 0#W := rfl
@[simp] theorem Block.atReset_res0 (W : Nat) :
    (Block.atReset W).res0 = 0#W := rfl
@[simp] theorem Block.atReset_res1 (W : Nat) :
    (Block.atReset W).res1 = 0#W := rfl
@[simp] theorem Block.atReset_busy (W : Nat) :
    (Block.atReset W).busy = false := rfl
@[simp] theorem Block.atReset_done (W : Nat) :
    (Block.atReset W).done = false := rfl
@[simp] theorem Block.atReset_err (W : Nat) :
    (Block.atReset W).err = false := rfl
@[simp] theorem Block.atReset_aerr (W : Nat) :
    (Block.atReset W).aerr = false := rfl
@[simp] theorem Block.atReset_ecode (W : Nat) :
    (Block.atReset W).ecode = 0#4 := rfl
@[simp] theorem Block.atReset_op (W : Nat) :
    (Block.atReset W).op = 0#4 := rfl

/-! ## Operand registers -/

@[simp] theorem Block.get_set_same {W : Nat} (b : Block W) (r : Reg) (v : Word W) : (b.set r v).get r = v := by
  cases r <;> rfl

theorem Block.get_set_of_ne {W : Nat} (b : Block W) {r r' : Reg} (v : Word W) (h : r' ≠ r) :
    (b.set r v).get r' = b.get r' := by
  cases r <;> cases r' <;> first | rfl | exact absurd rfl h

@[simp] theorem Block.set_get {W : Nat} (b : Block W) (r : Reg) : b.set r (b.get r) = b := by
  cases r <;> rfl

@[simp] theorem Block.get_atReset (W : Nat) (r : Reg) : (Block.atReset W).get r = 0#W := by
  cases r <;> rfl

@[simp] theorem Block.set_res0 {W : Nat} (b : Block W) (r : Reg) (v : Word W) :
    (b.set r v).res0 = b.res0 := by
  cases r <;> rfl
@[simp] theorem Block.set_res1 {W : Nat} (b : Block W) (r : Reg) (v : Word W) :
    (b.set r v).res1 = b.res1 := by
  cases r <;> rfl
@[simp] theorem Block.set_busy {W : Nat} (b : Block W) (r : Reg) (v : Word W) :
    (b.set r v).busy = b.busy := by
  cases r <;> rfl
@[simp] theorem Block.set_done {W : Nat} (b : Block W) (r : Reg) (v : Word W) :
    (b.set r v).done = b.done := by
  cases r <;> rfl
@[simp] theorem Block.set_err {W : Nat} (b : Block W) (r : Reg) (v : Word W) :
    (b.set r v).err = b.err := by
  cases r <;> rfl
@[simp] theorem Block.set_aerr {W : Nat} (b : Block W) (r : Reg) (v : Word W) :
    (b.set r v).aerr = b.aerr := by
  cases r <;> rfl
@[simp] theorem Block.set_ecode {W : Nat} (b : Block W) (r : Reg) (v : Word W) :
    (b.set r v).ecode = b.ecode := by
  cases r <;> rfl
@[simp] theorem Block.set_op {W : Nat} (b : Block W) (r : Reg) (v : Word W) :
    (b.set r v).op = b.op := by
  cases r <;> rfl
@[simp] theorem Block.get_refuseWrite {W : Nat} (b : Block W) (r : Reg) :
    (b.refuseWrite).get r = b.get r := by
  cases r <;> rfl
@[simp] theorem Block.get_accept {W : Nat} (b : Block W) (code : Nat) (r : Reg) :
    (b.accept code).get r = b.get r := by
  cases r <;> rfl
@[simp] theorem Block.get_raiseInvalidDomain {W : Nat} (b : Block W) (r : Reg) :
    (b.raiseInvalidDomain).get r = b.get r := by
  cases r <;> rfl
@[simp] theorem Block.get_raiseIllegalCommand {W : Nat} (b : Block W) (c : Word W) (r : Reg) :
    (b.raiseIllegalCommand c).get r = b.get r := by
  cases r <;> rfl
@[simp] theorem Block.get_complete {W : Nat} (b : Block W) (out : OpResult) (r : Reg) :
    (b.complete out).get r = b.get r := by
  cases out <;> cases r <;> rfl

end Sys2Proof.Machine
end

