-- ==== Sys2Proof/Laws/Ops.lean ====
section
/-! SUPPORT. The two phases of a computing command, and what `exec` answers. -/

namespace Sys2Proof.Machine

open Sys2Proof

/-- What a command's function gives on a block's operand registers; `CLR` has none. -/
def Block.outcome {W : Nat} (b : Block W) : Instr → OpResult
  | .clr => .invalidDomain
  | .modexp => b.modExpResult
  | .jacobi => b.jacobiResult
  | .lucas => b.lucasResult
  | .mrtest => b.mrTestResult

/-- Idle: acceptance (R94). -/
theorem Block.runCommand_idle {W : Nat} {b : Block W} (i : Instr) (out : OpResult) (h : b.busy = false) :
    b.runCommand i out = b.accept i.code := by simp [Block.runCommand, h]

/-- Busy with the command: completion (R96). -/
theorem Block.runCommand_running {W : Nat} {b : Block W} {i : Instr} (out : OpResult) (h : b.busy = true)
    (hop : b.op.toNat = i.code) : b.runCommand i out = b.complete out := by simp [Block.runCommand, h, hop]

/-- Busy with another command: turned away (R92). -/
theorem Block.runCommand_other {W : Nat} {b : Block W} {i : Instr} (out : OpResult) (h : b.busy = true)
    (hop : b.op.toNat ≠ i.code) : b.runCommand i out = b.refuseWrite := by simp [Block.runCommand, h, hop]

/-- No phase of a computing command changes an operand register (R20). -/
@[simp] theorem Block.get_runCommand {W : Nat} (b : Block W) (i : Instr) (out : OpResult) (r : Reg) :
    (b.runCommand i out).get r = b.get r := by
  unfold Block.runCommand
  split
  · split <;> simp
  · simp

/-- `exec` of a computing command is its two phases on its own function. -/
theorem exec_computing {i : Instr} (hi : i.computing = true) (s : State) :
    exec i s = .next (s.withBlock (s.block.runCommand i (s.block.outcome i))) := by
  cases i <;> first | rfl | cases hi

/-- `exec` of `CLR`. -/
theorem exec_clr (s : State) :
    exec .clr s = .next (s.withBlock (if s.block.busy then s.block.refuseWrite else s.block.clear)) := rfl

/-- `exec` always answers a next state, and changes the block alone. -/
theorem exec_next (i : Instr) (s : State) : ∃ b, exec i s = .next (s.withBlock b) := by
  cases i <;> exact ⟨_, rfl⟩

/-- A computing command's number is 1 to 4. -/
theorem Instr.code_of_computing {i : Instr} (hi : i.computing = true) : 1 ≤ i.code ∧ i.code ≤ 4 := by
  cases i <;> first | (cases hi; done) | decide

/-- The number of a command fits the `OP` field, as simp writes it. -/
@[simp] theorem Instr.code_mod_sixteen (i : Instr) : i.code % 16 = i.code := by
  cases i <;> rfl

/-- The number of a command fits the `OP` field. -/
theorem Instr.toNat_ofNat_code (i : Instr) : (BitVec.ofNat 4 i.code).toNat = i.code := by
  cases i <;> rfl

/-- Decoding a command's number gives the command (R73). -/
@[simp] theorem decodeNat_code (i : Instr) : decodeNat i.code = .command i := by cases i <;> rfl

/-- A number that decodes to a command is that command's. -/
theorem code_of_decodeNat {k : Nat} {i : Instr} (h : decodeNat k = .command i) : k = i.code := by
  unfold decodeNat at h
  split at h <;> first | (cases h; rfl) | cases h

/-- A number that decodes to no command is above 4 (R74). -/
theorem lt_of_decodeNat_illegal {k : Nat} (h : decodeNat k = .illegalCommand) : 4 < k := by
  by_contra hk
  have : k = 0 ∨ k = 1 ∨ k = 2 ∨ k = 3 ∨ k = 4 := by omega
  rcases this with rfl | rfl | rfl | rfl | rfl <;> cases h

end Sys2Proof.Machine
end

