-- ==== Sys2Proof/Laws/PerInstr.lean ====
section
/-! SUPPORT. The per-instruction family: every command is well-formed at every width R5 allows, and its word is its
number (R71, R73). -/

namespace Sys2Proof.Laws.CommandWord

open Sys2Proof

/-- The command fits the word, and the word is its number. -/
def Statement (i : Instr) : Prop := ∀ W, 32 ≤ W → i.wf W = true ∧ (encode W i).toNat = i.code

theorem of_code_lt {i : Instr} (h : i.code < 2 ^ 32) : Statement i := by
  intro W hW
  have h2 : i.code < 2 ^ W := lt_of_lt_of_le h (Nat.pow_le_pow_right (by decide) hW)
  exact ⟨by simp [Instr.wf, h2], by simp [encode, Nat.mod_eq_of_lt h2]⟩

theorem clr : Statement .clr := of_code_lt (by decide)
theorem modexp : Statement .modexp := of_code_lt (by decide)
theorem jacobi : Statement .jacobi := of_code_lt (by decide)
theorem lucas : Statement .lucas := of_code_lt (by decide)
theorem mrtest : Statement .mrtest := of_code_lt (by decide)

end Sys2Proof.Laws.CommandWord
end

