-- ==== Sys2Proof/Laws/Step.lean ====
section
/-! SUPPORT. What a step can do: one lemma for each turn, and all that the unit's turn and a write can come to. -/

namespace Sys2Proof.Machine

open Sys2Proof

/-- A step takes the next turn. -/
theorem step_cons {s : State} {t : Turn s.cfg.W} {ts : List (Turn s.cfg.W)} (h : s.port.turns = t :: ts) :
    step s = takeTurn (s.withTurns ts) t := by
  unfold step
  rw [h]

/-- With no turn left, a step is the unit's. -/
theorem step_nil {s : State} (h : s.port.turns = []) : step s = unitTurn s := by
  unfold step
  rw [h]

/-- The unit's turn on an idle block. -/
theorem unitTurn_idle {s : State} (h : s.block.busy = false) : unitTurn s = .next s := by
  simp [unitTurn, h]

/-- The unit's turn on a block busy with a computing command is its completion (R96). -/
theorem unitTurn_running {s : State} {i : Instr} (hb : s.block.busy = true) (hop : s.block.op.toNat = i.code)
    (hi : i.computing = true) : unitTurn s = .next (s.withBlock (s.block.complete (s.block.outcome i))) := by
  simp [unitTurn, hb, hop, hi, exec_computing hi, Block.runCommand_running _ hb hop]

/-- All that the unit's turn can come to: nothing on an idle block, else the completion of the command `OP` names. -/
theorem unitTurn_cases {s t : State} (h : unitTurn s = .next t) :
    (s.block.busy = false ∧ t = s)
    ∨ ∃ i, i.computing = true ∧ s.block.busy = true ∧ s.block.op.toNat = i.code
        ∧ t = s.withBlock (s.block.complete (s.block.outcome i)) := by
  by_cases hb : s.block.busy = true
  · right
    unfold unitTurn at h
    rw [if_pos hb] at h
    split at h
    · rename_i i hd
      split at h
      · rename_i hi
        have hop := code_of_decodeNat hd
        rw [exec_computing hi, Block.runCommand_running _ hb hop] at h
        injection h with h
        exact ⟨i, hi, hb, hop, h.symm⟩
      · cases h
    · cases h
  · left
    rw [Bool.not_eq_true] at hb
    rw [unitTurn_idle hb] at h
    injection h with h
    exact ⟨hb, h.symm⟩

/-- What a write does to the block (R92, R93, R91, R95). -/
def Block.afterWrite {W : Nat} (b : Block W) (addr : Addr) (data : Word W) : Block W :=
  if b.busy then b.refuseWrite
  else
    match decodeAddr addr with
    | .operand r => b.set r data
    | .cmd =>
      if data.toNat = 0 then b.clear
      else if data.toNat ≤ 4 then b.accept data.toNat
      else b.raiseIllegalCommand data
    | .res0 => b.refuseWrite
    | .res1 => b.refuseWrite
    | .status => b.refuseWrite
    | .cfg => b.refuseWrite
    | .reserved => b.refuseWrite

/-- A write always answers a next state, in which the block alone differs. -/
theorem writePort_eq (s : State) (addr : Addr) (data : Word s.cfg.W) :
    writePort s addr data = .next (s.withBlock (s.block.afterWrite addr data)) := by
  by_cases hb : s.block.busy = true
  · simp [writePort, Block.afterWrite, hb]
  · rw [Bool.not_eq_true] at hb
    unfold writePort Block.afterWrite
    cases decodeAddr addr <;> simp only [hb, Bool.false_eq_true, if_false]
    unfold issueCommand decodeCommand
    cases hd : decodeNat data.toNat with
    | illegalCommand =>
      have := lt_of_decodeNat_illegal hd
      simp only
      rw [if_neg (by omega), if_neg (by omega)]
    | command i =>
      have hc := code_of_decodeNat hd
      simp only [hc]
      by_cases hi : i.computing = true
      · have := Instr.code_of_computing hi
        rw [exec_computing hi, Block.runCommand_idle _ _ hb, if_neg (by omega), if_pos (by omega)]
      · have : i = .clr := by cases i <;> simp_all [Instr.computing]
        subst this
        rw [exec_clr, if_neg (by simp [hb])]
        rfl

/-- All that a step can do, by the turn it takes. -/
theorem step_cases {s t : State} (h : step s = .next t) :
    (s.port.turns = [] ∧ unitTurn s = .next t)
    ∨ ∃ ts, (∃ addr, s.port.turns = .rd addr :: ts ∧ t = (s.withTurns ts).withRead (s.block.read (decodeAddr addr)))
      ∨ (∃ addr data, s.port.turns = .wr addr data :: ts
          ∧ t = (s.withTurns ts).withBlock (s.block.afterWrite addr data))
      ∨ (s.port.turns = .unit :: ts ∧ unitTurn (s.withTurns ts) = .next t)
      ∨ (∃ w c, s.port.turns = .reset w c :: ts ∧ t = (s.withTurns ts).withBlock (Block.atReset s.cfg.W)) := by
  cases hp : s.port.turns with
  | nil => exact .inl ⟨rfl, by rw [← step_nil hp]; exact h⟩
  | cons x ts =>
    rw [step_cons hp] at h
    refine .inr ⟨ts, ?_⟩
    cases x with
    | rd addr =>
      injection h with h
      exact .inl ⟨addr, rfl, h.symm⟩
    | wr addr data =>
      change writePort (s.withTurns ts) addr data = .next t at h
      rw [writePort_eq] at h
      injection h with h
      exact .inr (.inl ⟨addr, data, rfl, h.symm⟩)
    | unit => exact .inr (.inr (.inl ⟨rfl, h⟩))
    | reset w c =>
      injection h with h
      exact .inr (.inr (.inr ⟨w, c, rfl, h.symm⟩))

/-- A run of one step more, for any machine. -/
theorem run_succ_of (M : Host.Core) (k : Nat) {s t : M.State} (h : M.step s = .next t) :
    M.run (k + 1) s = M.run k t := by
  rw [Host.Core.run, h]

/-- A run of one step more is a step and a run. -/
theorem run_succ (k : Nat) {s t : State} (h : step s = .next t) : core.run (k + 1) s = core.run k t :=
  run_succ_of core k h

end Sys2Proof.Machine
end

