-- ==== Sys2Proof/Tests/Slice0.lean ====
section
/-! SUPPORT. The model's own tests: the checks of WellFormed refuse what is ill-formed, the spec's words decode as the spec
says, one step for each command against a vector of 95_test_vectors.md (its number in the name's docstring), and a witness for
the hypotheses of every statement. -/

namespace Sys2Proof.Tests

open Sys2Proof Sys2Proof.Machine

/-! ## States to test on, at `W = 32` -/

/-- A state with the block `b` and the turns `ts` to come. -/
def at32 (b : Block 32) (ts : List (Turn 32)) : State where
  cfg := Config.atReset
  block := b
  port := { turns := ts, rdata := none }

/-- The block after reset. -/
def zero : Block 32 := Block.atReset 32

/-- The operands `A`, `E`, `N`. -/
def aen (a e n : Int) : Block 32 := { zero with a := enc 32 a, e := enc 32 e, n := enc 32 n }

/-- The operands of `LUCAS`. -/
def lucasRegs (k n u v p q d : Int) : Block 32 :=
  { aen 0 k n with u0 := enc 32 u, v0 := enc 32 v, p := enc 32 p, q := enc 32 q, d := enc 32 d }

/-- The block busy with the command `i`. -/
def busyWith (i : Instr) (b : Block 32) : Block 32 := { b with busy := true, op := BitVec.ofNat 4 i.code }

/-- `RES0`, `RES1` and `STATUS` after the step, as numbers. -/
def seen : Host.Outcome State Fault Refusal → Option (Nat × Nat × Nat)
  | .next s => some (s.block.res0.toNat, s.block.res1.toNat, s.block.status.toNat)
  | .fault _ => none
  | .refused _ => none

/-- What the host read last. -/
def heard : Host.Outcome State Fault Refusal → Option Nat
  | .next s => s.port.rdata.map BitVec.toNat
  | .fault _ => none
  | .refused _ => none

/-! ## Well-formedness: an ill-formed term for each check -/

theorem test_wf_code_needs_its_bits : Instr.wf 2 .mrtest = false ∧ Instr.wf 32 .mrtest = true := by decide
theorem test_wf_zero_field : zeroFieldClear 0x00000011#32 = false ∧ zeroFieldClear 0x00000001#32 = true := by decide
theorem test_wf_opcode : opcodeAssigned 0x00000007#32 = false ∧ opcodeAssigned 0x00000004#32 = true := by decide
theorem test_wf_word : commandWordWf 0x80000000#32 = false ∧ commandWordWf 0x00000005#32 = false
    ∧ commandWordWf 0x00000003#32 = true := by decide

/-! ## Decoding: the words of R73, bit by bit -/

theorem test_decode_clr : decodeCommand 0b00000000000000000000000000000000#32 = .command .clr := by decide
theorem test_decode_modexp : decodeCommand 0b00000000000000000000000000000001#32 = .command .modexp := by decide
theorem test_decode_jacobi : decodeCommand 0b00000000000000000000000000000010#32 = .command .jacobi := by decide
theorem test_decode_lucas : decodeCommand 0b00000000000000000000000000000011#32 = .command .lucas := by decide
theorem test_decode_mrtest : decodeCommand 0b00000000000000000000000000000100#32 = .command .mrtest := by decide

/-- R74: the least illegal word, and a zero-field bit set beside each legal number. -/
theorem test_decode_illegal : decodeCommand 0b101#32 = .illegalCommand ∧ decodeCommand 0b10000#32 = .illegalCommand
    ∧ decodeCommand 0b10001#32 = .illegalCommand ∧ decodeCommand 0x80000004#32 = .illegalCommand := by decide

theorem test_decode_table_word : decodeTableWord 32 0 = some .clr ∧ decodeTableWord 32 1 = some .modexp
    ∧ decodeTableWord 32 2 = some .jacobi ∧ decodeTableWord 32 3 = some .lucas ∧ decodeTableWord 32 4 = some .mrtest
    ∧ decodeTableWord 32 5 = none := by decide

/-- The first step after reset runs the fetched word: V0.6 for each computing command, V0.15 for `CLR`. -/
theorem test_fetch_runs : seen (step (State.reset.withFetchWord 32 0)) = some (0, 0, 0)
    ∧ seen (step (State.reset.withFetchWord 32 1)) = some (0, 0, 0x101)
    ∧ seen (step (State.reset.withFetchWord 32 2)) = some (0, 0, 0x201)
    ∧ seen (step (State.reset.withFetchWord 32 3)) = some (0, 0, 0x301)
    ∧ seen (step (State.reset.withFetchWord 32 4)) = some (0, 0, 0x401) := by decide

/-! ## One step of each command -/

/-- V1.15. -/
theorem test_modexp_large : seen (exec .modexp (at32 (busyWith .modexp (aen 123456789 65537 1000000007)) []))
    = some (560583526, 0, 0x102) := by decide
/-- V1.9: exponent 0 comes before modulus 1. -/
theorem test_modexp_exponent_zero : seen (exec .modexp (at32 (busyWith .modexp (aen 7 0 1)) [])) = some (1, 0, 0x102) := by
  decide
/-- V2.35: the most negative operand. -/
theorem test_jacobi_most_negative : seen (exec .jacobi (at32 (busyWith .jacobi (aen (-2147483648) 0 7)) []))
    = some (0xFFFFFFFF, 0, 0x202) := by decide
/-- V2.21: the sign of a negative operand and of reciprocity. -/
theorem test_jacobi_signs : seen (exec .jacobi (at32 (busyWith .jacobi (aen (-7) 0 15)) [])) = some (1, 0, 0x202) := by
  decide
/-- V3.2: an even and an odd quantity before the halving. -/
theorem test_lucas_parity : seen (exec .lucas (at32 (busyWith .lucas (lucasRegs 3 7 1 1 1 (-1) 12)) []))
    = some (2, 4, 0x302) := by decide
/-- V3.9: a composite modulus, a negative `D`, both digits. -/
theorem test_lucas_negative_d : seen (exec .lucas (at32 (busyWith .lucas (lucasRegs 13 21 1 1 1 2 (-7))) []))
    = some (20, 8, 0x302) := by decide
/-- V4.11: the square of 1093, which passes stage 2. -/
theorem test_mrtest_square : seen (exec .mrtest (at32 (busyWith .mrtest (aen 0 0 1194649)) [])) = some (0, 3, 0x402) := by
  decide
/-- V4.10: a composite that stage 2 finds. -/
theorem test_mrtest_witness : seen (exec .mrtest (at32 (busyWith .mrtest (aen 0 0 721801)) [])) = some (0, 2, 0x402) := by
  decide
/-- V0.15. -/
theorem test_clr_clears : exec .clr (at32 { aen 1 2 3 with aerr := true, err := true, done := true, ecode := 2#4, op := 7#4 } [])
    = .next (at32 zero []) := by rfl
/-- V0.8: `CLR` while busy. -/
theorem test_clr_while_busy : seen (step (at32 (busyWith .jacobi (aen 3 0 7)) [.wr 0xA#4 0#32])) = some (0, 0, 0x209) := by
  decide

/-! ## The port -/

/-- V0.13. -/
theorem test_illegal_word : seen (step (at32 { zero with aerr := true } [.wr 0xA#4 0x11#32])) = some (0, 0, 0x12E) := by decide
/-- V0.14. -/
theorem test_illegal_top_bit : seen (step (at32 zero [.wr 0xA#4 0x80000000#32])) = some (0, 0, 0x026) := by decide
/-- V0.10: a write to a read-only register. -/
theorem test_write_read_only : seen (step (at32 { zero with res0 := enc 32 (-1), done := true, op := 2#4 } [.wr 8#4 1#32]))
    = some (0xFFFFFFFF, 0, 0x20A) := by decide
/-- V0.1: `CFG` just after reset. -/
theorem test_read_cfg : heard (step (at32 zero [.rd 0xC#4])) = some 32 := by decide
/-- V0.16: reset ends a running command. -/
theorem test_reset_while_busy : step (at32 (busyWith .lucas (aen 1 2 3)) [.reset (some (0#4, 9#32)) true])
    = .next (at32 zero []) := by rfl

/-! ## Witnesses: the hypotheses of each statement, met together

A statement whose only hypothesis is that a step answers a next state is met by any state of the others. -/

theorem witness_DecodeAndEncodeAgree : 32 ≤ 32 ∧ (encode 32 .clr).toNat = 0 ∧ (encode 32 .modexp).toNat = 1
    ∧ (encode 32 .jacobi).toNat = 2 ∧ (encode 32 .lucas).toNat = 3 ∧ (encode 32 .mrtest).toNat = 4
    ∧ (5#32).toNat ∉ [0, 1, 2, 3, 4] := by decide

theorem witness_StepRunsDecodedCommand : ∀ i : Instr,
    ∃ (s : State) (data : Word s.cfg.W) (ts : List (Turn s.cfg.W)),
      s.port.turns = .wr cmdAddr data :: ts ∧ s.block.busy = false ∧ decodeCommand data = .command i :=
  fun i => ⟨at32 zero [.wr cmdAddr (encode 32 i), .unit], encode 32 i, [.unit], rfl, rfl, by cases i <;> decide⟩

theorem witness_UnitTurnRunsCommandOfOp : ∀ i : Instr, i.computing = true →
    (∃ (s : State) (ts : List (Turn s.cfg.W)), s.running i ∧ s.port.turns = .unit :: ts)
    ∧ ∃ s : State, s.running i ∧ s.port.turns = [] :=
  fun i _ => ⟨⟨at32 (busyWith i (aen 1 2 3)) [.unit], [], ⟨rfl, by cases i <;> decide⟩, rfl⟩,
    at32 (busyWith i (aen 1 2 3)) [], ⟨rfl, by cases i <;> decide⟩, rfl⟩

theorem witness_FetchedWordRunsNext : State.reset.block.busy = false := rfl

/-- A write to a busy block; then, idle, an operand, each kind of command word, and a read-only address. -/
theorem witness_WriteDispatch : ∀ p ∈ [(true, 0xA#4, 0#32), (false, 0#4, 9#32), (false, 0xA#4, 0#32), (false, 0xA#4, 1#32),
      (false, 0xA#4, 4#32), (false, 0xA#4, 5#32), (false, 7#4, 9#32), (false, 8#4, 9#32), (false, 0xF#4, 9#32)],
    ∃ (s : State) (addr : Addr) (data : Word s.cfg.W) (ts : List (Turn s.cfg.W)),
      s.port.turns = .wr addr data :: ts ∧ s.block.busy = p.1 ∧ addr = p.2.1 :=
  fun p _ => ⟨at32 { busyWith .lucas zero with busy := p.1 } [.wr p.2.1 p.2.2], p.2.1, p.2.2, [], rfl, rfl, rfl⟩

theorem witness_IdleBlockWaits : (∃ s : State, s.block.busy = false ∧ s.port.turns = [])
    ∧ ∃ (s : State) (ts : List (Turn s.cfg.W)), s.block.busy = false ∧ s.port.turns = .unit :: ts :=
  ⟨⟨at32 zero [], rfl, rfl⟩, at32 zero [.unit], [], rfl, rfl⟩

/-- Every address, idle; and the results of a busy block. -/
theorem witness_ReadReturnsRegisterSpace :
    (∀ addr : Addr, ∃ (s : State) (ts : List (Turn s.cfg.W)), s.port.turns = .rd addr :: ts)
    ∧ (∀ r : Reg, r.addr.toNat < 8) ∧ 13 ≤ (0xD#4).toNat ∧ 13 ≤ (0xF#4).toNat ∧ ¬ 13 ≤ (0xC#4).toNat
    ∧ ∃ (s : State) (ts : List (Turn s.cfg.W)), s.port.turns = .rd 8#4 :: ts ∧ s.Inv ∧ s.block.busy = true :=
  ⟨fun addr => ⟨at32 (aen 1 2 3) [.rd addr], [], rfl⟩, fun r => by cases r <;> decide, by decide, by decide, by decide,
    at32 (busyWith .mrtest (aen 1 2 3)) [.rd 8#4], [], rfl, by decide, rfl⟩

theorem witness_OperandWriteWhileIdle : ∀ r : Reg,
    ∃ (s : State) (data : Word s.cfg.W) (ts : List (Turn s.cfg.W)),
      s.port.turns = .wr r.addr data :: ts ∧ s.block.busy = false :=
  fun r => ⟨at32 (aen 1 2 3) [.wr r.addr 0x80000000#32], 0x80000000#32, [], rfl, rfl⟩

theorem witness_WriteWhileBusyRefused :
    ∃ (s : State) (addr : Addr) (data : Word s.cfg.W) (ts : List (Turn s.cfg.W)),
      s.port.turns = .wr addr data :: ts ∧ s.block.busy = true :=
  ⟨at32 (busyWith .jacobi (aen 3 0 7)) [.wr 1#4 5#32], 1#4, 5#32, [], rfl, rfl⟩

theorem witness_ReadOnlyWriteRefused : ∀ addr ∈ [8#4, 9#4, 0xB#4, 0xC#4, 0xD#4, 0xE#4, 0xF#4], addr.toNat ∈ [8, 9, 11, 12, 13, 14, 15]
    ∧ ∃ (s : State) (data : Word s.cfg.W) (ts : List (Turn s.cfg.W)),
      s.port.turns = .wr addr data :: ts ∧ s.block.busy = false :=
  fun addr h => ⟨by revert addr; decide, at32 zero [.wr addr 1#32], 1#32, [], rfl, rfl⟩

theorem witness_AcceptanceEffect : ∀ k ∈ [1#32, 2#32, 3#32, 4#32], k.toNat ∈ [1, 2, 3, 4]
    ∧ ∃ (s : State) (data : Word s.cfg.W) (ts : List (Turn s.cfg.W)),
      s.port.turns = .wr cmdAddr data :: ts ∧ s.block.busy = false ∧ data.toNat = k.toNat :=
  fun k h => ⟨by fin_cases h <;> decide, at32 { aen 1 2 3 with aerr := true, done := true } [.wr cmdAddr k], k, [], rfl, rfl, rfl⟩

theorem witness_IllegalCommandEffect : ∀ k ∈ [5#32, 0x10#32, 0x11#32, 0x80000000#32, 0xFFFFFFFF#32], k.toNat ∉ [0, 1, 2, 3, 4]
    ∧ ∃ (s : State) (data : Word s.cfg.W) (ts : List (Turn s.cfg.W)),
      s.port.turns = .wr cmdAddr data :: ts ∧ s.block.busy = false ∧ data.toNat = k.toNat :=
  fun k h => ⟨by fin_cases h <;> decide, at32 zero [.wr cmdAddr k], k, [], rfl, rfl, rfl⟩

theorem witness_ResetFromAnyState :
    ∃ (s : State) (w : Option (Addr × Word s.cfg.W)) (c : Bool) (ts : List (Turn s.cfg.W)),
      s.port.turns = .reset w c :: ts ∧ s.block.busy = true :=
  ⟨at32 (busyWith .lucas (aen 1 2 3)) [.reset (some (0xA#4, 1#32)) true], some (0xA#4, 1#32), true, [], rfl, rfl⟩

theorem witness_ClearEffect : (∃ s : State, s.block.busy = false) ∧ (∃ s : State, s.block.busy = true)
    ∧ ∃ (i : Instr) (s t : State), i ≠ .clr ∧ exec i s = .next t ∧ s.block.aerr = true :=
  ⟨⟨at32 (aen 1 2 3) [], rfl⟩, ⟨at32 (busyWith .modexp zero) [], rfl⟩, .modexp, at32 { aen 1 2 3 with aerr := true } [], _,
    by decide, rfl, rfl⟩

/-- Idle; busy with the command; busy with another one. -/
theorem witness_ComputingCommandFrame : ∀ i : Instr, i.computing = true →
    (∃ s t : State, exec i s = .next t ∧ s.block.busy = false)
    ∧ (∃ s t : State, exec i s = .next t ∧ s.block.busy = true ∧ s.block.op.toNat = i.code)
    ∧ ∃ s t : State, exec i s = .next t ∧ s.block.busy = true ∧ s.block.op.toNat ≠ i.code := by
  intro i hi
  have h (s : State) : ∃ t, exec i s = .next t := let ⟨b, e⟩ := exec_next i s; ⟨_, e⟩
  obtain ⟨t₁, h₁⟩ := h (at32 (aen 1 2 3) [])
  obtain ⟨t₂, h₂⟩ := h (at32 (busyWith i (aen 1 2 3)) [])
  obtain ⟨t₃, h₃⟩ := h (at32 { busyWith i zero with op := 0#4 } [])
  exact ⟨⟨_, t₁, h₁, rfl⟩, ⟨_, t₂, h₂, rfl, by cases i <;> decide⟩, _, t₃, h₃, rfl, by cases i <;> first | decide | cases hi⟩

theorem witness_AcceptedCommandCompletes : Instr.computing .mrtest = true ∧ (at32 (aen 0 0 503) []).block.busy = false := by
  decide

/-- A state of the invariants for each command, in its domain and out of it, each reason alone. -/
theorem witness_InvalidDomainOutcome : ∀ p ∈ [(Instr.modexp, (5, 3, 23)), (.modexp, (5, -1, 23)), (.modexp, (5, 0, 0)),
      (.jacobi, (3, 0, 7)), (.jacobi, (3, 0, -7)), (.jacobi, (3, 0, 10)), (.lucas, (0, 1, 7)), (.lucas, (0, 0, 7)),
      (.lucas, (0, 1, -7)), (.lucas, (0, 1, 8)), (.mrtest, (0, 0, 2)), (.mrtest, ((0, 0, 1) : Int × Int × Int))],
    p.1.computing = true ∧ (at32 (busyWith p.1 (aen p.2.1 p.2.2.1 p.2.2.2)) []).Inv
      ∧ (at32 (busyWith p.1 (aen p.2.1 p.2.2.1 p.2.2.2)) []).running p.1 := by decide

theorem witness_CommandsReadOnlyTheirOperands : Instr.computing .modexp = true ∧ Reg.d ∉ Instr.reads .modexp
    ∧ Reg.e ∉ Instr.reads .jacobi ∧ Reg.a ∉ Instr.reads .lucas ∧ Reg.a ∉ Instr.reads .mrtest := by decide

theorem witness_ZeroOperandsAreInvalid : ∀ i : Instr, i.computing = true →
    (at32 (busyWith i zero) []).running i ∧ ∀ r, (at32 (busyWith i zero) []).block.get r = 0#_ :=
  fun i _ => ⟨⟨rfl, by cases i <;> decide⟩, fun r => by cases r <;> rfl⟩

theorem witness_ModexpComputesPower : (at32 (busyWith .modexp (aen 5 3 23)) []).running .modexp := by decide

/-- Exponent 0; modulus 1; the largest modulus. -/
theorem witness_ModexpResultRange : ∀ p ∈ [((0 : Int), (1 : Int)), (0, 9), (5, 1), (5, 2147483647)],
    let s := at32 (busyWith .modexp (aen 7 p.1 p.2)) []
    s.running .modexp ∧ 0 ≤ s.block.operand .e ∧ 1 ≤ s.block.operand .n
      ∧ s.block.operand .e = p.1 ∧ s.block.operand .n = p.2 := by decide

theorem witness_ModexpBoundaryProperties : (0 : Int) < 1 ∧ (0 : Int) < 5 := by decide

theorem witness_ModexpBaseByResidue : (0 : Int) ≤ 0 ∧ (1 : Int) ≤ 1 := by decide

theorem witness_JacobiWritesSymbol :
    let s := at32 (busyWith .jacobi (aen (-7) 0 15)) []
    s.running .jacobi ∧ 1 ≤ s.block.operand .n ∧ s.block.operand .n % 2 = 1 := by decide

/-- One pair for each of the eight cases, at its boundary. -/
theorem witness_JacobiCases :
    ((1 : Int) ≤ 1 ∧ (1 : Int) % 2 = 1) ∧ ((3 : Int) ≠ 1 ∧ (0 : Int) = 0) ∧ ((3 : Int) ≠ 1 ∧ (1 : Int) = 1)
    ∧ ((3 : Int) ≠ 1 ∧ (2 : Int) = 2) ∧ ((3 : Int) ≠ 1 ∧ (-1 : Int) < 0) ∧ ((3 : Int) ≠ 1 ∧ (4 : Int) ≤ 4 ∧ (4 : Int) % 2 = 0)
    ∧ ((3 : Int) ≠ 1 ∧ (3 : Int) ≤ 3 ∧ (3 : Int) % 2 = 1) ∧ ((5 : Int) ≠ 1 ∧ (3 : Int) ≤ 3 ∧ (3 : Int) < 5)
    ∧ (1 : Int) ≤ 3 ∧ (3 : Int) % 2 = 1 ∧ (5 : Int) % 2 = 1 := by decide

theorem witness_JacobiIsTheNumberTheoreticSymbol : (1 : Int) ≤ 15 ∧ (15 : Int) % 2 = 1 := by decide

/-- A symbol of each value: at `n = 1`, with a common factor, and -1. -/
theorem witness_JacobiResultWord : ∀ p ∈ [((-7 : Int), (1 : Int)), (3, 9), (3, 7)],
    let s := at32 (busyWith .jacobi (aen p.1 0 p.2)) []
    s.running .jacobi ∧ 1 ≤ s.block.operand .n ∧ s.block.operand .n % 2 = 1 := by decide

theorem witness_LucasWritesPair : (at32 (busyWith .lucas (lucasRegs 3 7 1 1 1 (-1) 5)) []).running .lucas := by decide

/-- V3.1 to V3.4: the step update to subscript 3 with each pair of parities. -/
theorem witness_LucasDigitByDigit : (1 : Int) ≤ 1 ∧ (1 : Int) ≤ 3 ∧ (3 : Int) % 2 = 1
    ∧ ∀ p ∈ [((7 : Int), ((1 : Int), (-1 : Int), (5 : Int)), (0 : Int), (0 : Int)), (7, (1, -1, 12), 0, 1), (3, (2, -3, 16), 1, 0),
        (3, (1, -2, 9), 1, 1)],
      let y := lucasAdv 2 p.1 1 p.2.1.1 p.2.1.1 p.2.1.2.1 p.2.1.2.2
      (p.2.1.1 * y.U + y.V) % 2 = p.2.2.1 ∧ (p.2.1.2.2 * y.U + p.2.1.1 * y.V) % 2 = p.2.2.2 := by decide

theorem witness_LucasComputesSequenceTerms :
    let s := at32 (busyWith .lucas (lucasRegs 10 11 12 1 1 (-1) (-6))) []
    s.running .lucas ∧ 1 ≤ s.block.operand .e ∧ 1 ≤ s.block.operand .n ∧ s.block.operand .n % 2 = 1
      ∧ (s.block.operand .u0 - 1) % s.block.operand .n = 0
      ∧ (s.block.operand .v0 - s.block.operand .p) % s.block.operand .n = 0
      ∧ (s.block.operand .d - (s.block.operand .p * s.block.operand .p - 4 * s.block.operand .q)) % s.block.operand .n = 0 := by
  decide

theorem witness_LucasByResidues : (1 : Int) ≤ 1 ∧ (1 : Int) % 2 = 1 := by decide

theorem witness_LucasResultRange :
    let s := at32 (busyWith .lucas (lucasRegs 1 1 1 1 1 (-1) 5)) []
    s.running .lucas ∧ 1 ≤ s.block.operand .e ∧ 1 ≤ s.block.operand .n ∧ s.block.operand .n % 2 = 1 := by decide

theorem witness_LucasSingleDoubling : (1 : Int) ≤ 15 ∧ (15 : Int) % 2 = 1 ∧ (1 : Int) ≤ 1 := by decide

/-- The least modulus, the next, and a zero start (V3.16; then, by hand from R151, `V = 2` and its half `U = 1` for `k = 3`). -/
theorem witness_LucasCornerCases : (1 : Int) ≤ 1 ∧ (1 : Int) % 2 = 1 ∧ (1 : Int) ≤ 7 ∧ (7 : Int) % 2 = 1
    ∧ lucasAdv 2 503 0 0 1 (-1) 5 = { U := 0, V := 2, sub := 2 }
    ∧ lucasAdv 3 7 0 0 1 (-1) 5 = { U := 1, V := 1, sub := 3 } := by decide

/-- 503 passes stage 2, by the decomposition `502 = 251 * 2`. -/
theorem passesBaseTwo_503 : passesBaseTwo 503 := ⟨251, 1, by decide, by decide, .inl (by decide)⟩

/-- 1194649 = 1093² passes stage 2. -/
theorem passesBaseTwo_1194649 : passesBaseTwo 1194649 := (millerRabin_iff (by decide)).1 (by decide)

/-- 253009 = 503² does not. -/
theorem not_passesBaseTwo_253009 : ¬ passesBaseTwo 253009 := by
  rw [← millerRabin_iff (by decide)]
  decide

/-- 503 is no square. -/
theorem not_square_503 : ¬ ∃ r : Int, 0 ≤ r ∧ r * r = 503 := by
  rintro ⟨r, h0, h⟩
  have : r < 23 := by nlinarith
  interval_cases r <;> omega

/-- A candidate for each of the five clauses. -/
theorem witness_MrtestVerdictByStages :
    (∀ c ∈ [(499 : Int), 4, 253009, 1194649, 503], (at32 (busyWith .mrtest (aen 0 0 c)) []).running .mrtest
      ∧ 2 ≤ (at32 (busyWith .mrtest (aen 0 0 c)) []).block.operand .n
      ∧ (at32 (busyWith .mrtest (aen 0 0 c)) []).block.operand .n = c)
    ∧ (499 : Int) ∈ smallPrimes
    ∧ ((4 : Int) ∉ smallPrimes ∧ ∃ p ∈ smallPrimes, p ∣ (4 : Int))
    ∧ ((∀ p ∈ smallPrimes, ¬ p ∣ (253009 : Int)) ∧ ¬ passesBaseTwo 253009)
    ∧ ((∀ p ∈ smallPrimes, ¬ p ∣ (1194649 : Int)) ∧ passesBaseTwo 1194649 ∧ ∃ r : Int, 0 ≤ r ∧ r * r = 1194649)
    ∧ ((∀ p ∈ smallPrimes, ¬ p ∣ (503 : Int)) ∧ passesBaseTwo 503 ∧ ¬ ∃ r : Int, 0 ≤ r ∧ r * r = 503) :=
  ⟨by decide, by decide, by decide, ⟨by decide, not_passesBaseTwo_253009⟩,
    ⟨by decide, passesBaseTwo_1194649, 1093, by decide, by decide⟩, by decide, passesBaseTwo_503, not_square_503⟩

/-- 499 and 503 are prime; 721801 is found in stage 2 (V4.10). -/
theorem witness_MrtestVerdictsAreSound : mrTestOp 499 = .results 1 1 ∧ ((499 : Int) < 503 ∧ Nat.Prime (503 : Int).toNat)
    ∧ mrTestOp 721801 = .results 0 2 := ⟨by decide, ⟨by decide, (by norm_num : Nat.Prime 503)⟩, by decide⟩

theorem witness_MrtestResultPairs : (at32 (busyWith .mrtest (aen 0 0 2)) []).running .mrtest
    ∧ 2 ≤ (at32 (busyWith .mrtest (aen 0 0 2)) []).block.operand .n := by decide

/-- The least undecided candidate, and the least composite one. -/
theorem witness_UndecidedCandidates : (2 : Int) ≤ 503 ∧ (∀ p ∈ smallPrimes, ¬ p ∣ (503 : Int)) ∧ Nat.Prime 503 ∧ 503 < 509
    ∧ (∀ p ∈ smallPrimes, ¬ p ∣ (253009 : Int)) ∧ ¬ Nat.Prime (253009 : Int).toNat :=
  ⟨by decide, by decide, by norm_num, by decide, by decide, (by norm_num : ¬ Nat.Prime 253009)⟩

theorem witness_SquareTestIsExact : (0 : Int) ≤ 0 ∧ isSquare 0 = true ∧ isSquare 1194649 = true ∧ isSquare 1194648 = false := by
  decide

/-- A step from a state of the invariants: any of them answers a next state. -/
theorem witness_StepKeepsInvariants : ∃ s t : State, s.Inv ∧ step s = .next t :=
  ⟨at32 (busyWith .jacobi (aen 3 0 7)) [.unit], _, by decide, rfl⟩

theorem witness_RunsNeverStop : (at32 (busyWith .jacobi (aen 3 0 7)) [.rd 8#4, .wr 0#4 9#32, .unit]).Inv := by decide

theorem witness_BusyBlockCompletes : (at32 (busyWith .jacobi (aen 3 0 7)) [.rd 8#4]).Inv := by decide

theorem witness_InterleavingKeepsOutcome :
    ∃ (s : State) (ts : List (Turn s.cfg.W)), s.Inv ∧ s.block.busy = true ∧ (∀ t ∈ ts, t.isHost = true) ∧ ts.length = 3 :=
  ⟨at32 (busyWith .jacobi (aen 3 0 7)) [], [.rd 0xB#4, .wr 1#4 5#32, .wr 0xA#4 0#32], by decide, rfl, by decide, rfl⟩

theorem witness_OnlyCompletionAndResetEndACommand :
    ∃ s t : State, s.block.busy = true ∧ step s = .next t ∧ t.block.busy = false :=
  ⟨at32 (busyWith .jacobi (aen 3 0 7)) [.unit], _, rfl, rfl, by decide⟩

theorem witness_OperandsPersist :
    ∃ (s t : State) (r : Reg), step s = .next t ∧ ¬ s.resetNext ∧ ¬ s.clearNext
      ∧ ¬ (s.block.busy = false ∧ ∃ data, s.writeNext r.addr data) := by
  refine ⟨at32 (aen 3 0 7) [.rd 8#4], _, .n, rfl, ?_, ?_, ?_⟩
  · rintro ⟨w, c, ts, h⟩; cases h
  · rintro ⟨-, data, ⟨ts, h⟩, -⟩; cases h
  · rintro ⟨-, data, ts, h⟩; cases h

theorem witness_ResultsStayUntilNextCommand :
    ∃ s t : State, s.Inv ∧ s.block.done = true ∧ step s = .next t ∧ ¬ s.resetNext ∧ ¬ (∃ data, s.writeNext cmdAddr data) := by
  refine ⟨at32 { aen 3 0 7 with res0 := enc 32 (-1), done := true, op := 2#4 } [.wr 1#4 9#32], _, by decide, rfl, rfl, ?_, ?_⟩
  · rintro ⟨w, c, ts, h⟩; cases h
  · rintro ⟨data, ts, h⟩; cases h

/-- A read of an idle block; and a completion between the two reads of V3.2, 0 and then `RES1 = 4`. -/
theorem witness_ResultReadsAroundCompletion :
    (∃ s t : State, s.block.busy = false ∧ step s = .next t ∧ ¬ s.resetNext ∧ ¬ (∃ data, s.writeNext cmdAddr data))
    ∧ ∃ (s : State) (ts : List (Turn s.cfg.W)), s.Inv ∧ s.block.busy = true
      ∧ s.port.turns = .rd res0Addr :: .unit :: .rd res1Addr :: ts
      ∧ heard (step s) = some 0 ∧ heard (core.run 3 s) = some 4 := by
  refine ⟨⟨at32 (aen 3 0 7) [.rd res0Addr], _, rfl, rfl, ?_, ?_⟩,
    at32 (busyWith .lucas (lucasRegs 3 7 1 1 1 (-1) 12)) [.rd res0Addr, .unit, .rd res1Addr], [], by decide, rfl, rfl,
    by decide, by decide⟩
  · rintro ⟨w, c, ts, h⟩; cases h
  · rintro ⟨data, ts, h⟩; cases h

theorem witness_CommandWordClearsResults :
    ∃ (s : State) (data : Word s.cfg.W), s.block.busy = false ∧ s.writeNext cmdAddr data ∧ s.block.res0.toNat ≠ 0 :=
  ⟨at32 { zero with res0 := 9#32, done := true, op := 1#4 } [.wr cmdAddr 7#32], 7#32, rfl, ⟨[], rfl⟩, by decide⟩

/-- A write refused while busy, one refused while idle, `CLR`, and reset, each of them a step. -/
theorem witness_AccessFlag :
    (∃ s t : State, step s = .next t ∧ s.refusedNext ∧ s.block.busy = true)
    ∧ (∃ s t : State, step s = .next t ∧ s.refusedNext ∧ s.block.busy = false)
    ∧ (∃ s t : State, step s = .next t ∧ s.block.aerr = true ∧ s.clearNext)
    ∧ (∃ s t : State, step s = .next t ∧ s.block.aerr = true ∧ s.resetNext)
    ∧ Instr.computing .modexp = true :=
  ⟨⟨at32 (busyWith .jacobi zero) [.wr 1#4 5#32], _, rfl, ⟨1#4, 5#32, ⟨[], rfl⟩, .inl rfl⟩, rfl⟩,
    ⟨at32 zero [.wr 0xB#4 5#32], _, rfl, ⟨0xB#4, 5#32, ⟨[], rfl⟩, by decide⟩, rfl⟩,
    ⟨at32 { zero with aerr := true } [.wr cmdAddr 0#32], _, rfl, rfl, rfl, 0#32, ⟨[], rfl⟩, rfl⟩,
    ⟨at32 { zero with aerr := true } [.reset none false], _, rfl, rfl, none, false, [], rfl⟩, rfl⟩

theorem witness_WidthNeverChanges : ∃ s t : State, step s = .next t := ⟨at32 zero [.unit], _, rfl⟩

/-- The ends of the range. -/
theorem witness_SignedValuesRoundTrip : 1 ≤ 32 ∧ fits 32 (-2147483648) ∧ fits 32 2147483647 ∧ ¬ fits 32 2147483648 := by decide

end Sys2Proof.Tests
end

