-- ==== Sys2Proof/Proofs/SignedValues.lean ====
section
/-! SUPPORT. A register's content and its signed value determine each other (R9). -/

namespace Sys2Proof.Machine

/-- A register's signed value is one the register can hold. -/
theorem fits_sval {W : Nat} (hW : 1 ≤ W) (b : Word W) : fits W (sval b) := by
  rw [sval_eq_toInt hW]
  exact ⟨BitVec.le_toInt b, BitVec.toInt_lt⟩

/-- `enc` recovers a register's content from its signed value. -/
theorem enc_sval {W : Nat} (hW : 1 ≤ W) (b : Word W) : enc W (sval b) = b := by
  rw [sval_eq_toInt hW, enc, BitVec.ofInt_toInt]

/-- Settles O56: `sval` and `enc` are mutual inverses between the `W`-bit words and the values that fit. -/
theorem signedValuesRoundTrip : Obligations.SignedValuesRoundTrip :=
  fun _ _ b hW => ⟨sval_enc_of_fits hW, fits_sval hW b, enc_sval hW b⟩

end Sys2Proof.Machine
end

