-- ==== Sys2Proof/Proofs/State.lean ====
section
/-! SUPPORT. The state: the reset values (R37), the `STATUS` and `CFG` words (R28, R29), a command word placed for the next
step (R31), zero operands (R38), and the invariants of the status fields (R30) with what they give for runs. -/

namespace Sys2Proof.Machine

open Sys2Proof

/-! ## Reset (R37, R230) -/

@[simp] theorem Block.status_atReset (W : Nat) : (Block.atReset W).status = 0#W := rfl

/-- The reset value of every register and field, and what the three read-only words read as (R37). -/
theorem Block.atReset_values (W : Nat) :
    (∀ r, (Block.atReset W).get r = 0#W) ∧ (Block.atReset W).res0 = 0#W ∧ (Block.atReset W).res1 = 0#W
    ∧ (Block.atReset W).busy = false ∧ (Block.atReset W).done = false ∧ (Block.atReset W).err = false
    ∧ (Block.atReset W).aerr = false ∧ (Block.atReset W).ecode = 0#4 ∧ (Block.atReset W).op = 0#4
    ∧ (Block.atReset W).status = 0#W ∧ (Block.atReset W).read .cmd = 0#W
    ∧ (Block.atReset W).read .cfg = enc W W := by
  simp [Block.read]

/-- A step that takes a reset turn puts the block in its reset state (R230, R231). -/
theorem step_reset {s : State} {w : Option (Addr × Word s.cfg.W)} {c : Bool} {ts : List (Turn s.cfg.W)}
    (h : s.port.turns = .reset w c :: ts) :
    step s = .next ((s.withTurns ts).withBlock (Block.atReset s.cfg.W)) :=
  step_cons h

/-- Settles O17: the reset turn leaves the reset block, whatever else falls in its cycle. -/
theorem resetFromAnyState : Obligations.ResetFromAnyState :=
  fun s _ _ _ h => ⟨Block.atReset s.cfg.W, step_reset h, Block.atReset_values s.cfg.W⟩

/-- Settles O18: the block of `State.reset` is the reset block. -/
theorem resetValues : Obligations.ResetValues := Block.atReset_values Config.atReset.W

/-! ## The `STATUS` and `CFG` words (R28, R29) -/

/-- The fields of `STATUS` side by side, `OP` highest (R28). -/
def Block.statusFields {W : Nat} (b : Block W) : BitVec 12 :=
  ((((b.op ++ b.ecode).concat b.aerr).concat b.err).concat b.done).concat b.busy

/-- `STATUS` is its fields, zero-extended to the width. -/
theorem Block.status_eq_setWidth {W : Nat} (b : Block W) : b.status = b.statusFields.setWidth W := by
  have hfields : b.statusFields.toNat = b.busy.toNat + 2 * b.done.toNat + 4 * b.err.toNat + 8 * b.aerr.toNat
      + 16 * b.ecode.toNat + 256 * b.op.toNat := by
    have happend : (b.op ++ b.ecode).toNat = 16 * b.op.toNat + b.ecode.toNat := by
      rw [BitVec.toNat_append, ← Nat.shiftLeft_add_eq_or_of_lt b.ecode.isLt, Nat.shiftLeft_eq]
      omega
    simp only [Block.statusFields, BitVec.toNat_concat, happend]
    omega
  rw [Block.status, ← hfields, BitVec.ofNat_toNat]

/-- A bit of `STATUS` is that bit of its fields, for every width that holds all of them. -/
theorem Block.getLsbD_status {W : Nat} (hW : 12 ≤ W) (b : Block W) (j : Nat) :
    b.status.getLsbD j = b.statusFields.getLsbD j := by
  rw [Block.status_eq_setWidth, BitVec.getLsbD_setWidth]
  by_cases hj : j < W
  · simp [hj]
  · simp [hj, BitVec.getLsbD_of_ge b.statusFields j (by omega)]

/-- `ECODE` stands in bits 7 to 4 (R28). -/
theorem Block.getLsbD_statusFields_ecode {W : Nat} (b : Block W) {j : Nat} (hj : j < 4) :
    b.statusFields.getLsbD (4 + j) = b.ecode.getLsbD j := by
  rw [Nat.add_comm]
  simp only [Block.statusFields, BitVec.getLsbD_concat_succ, BitVec.getLsbD_append, hj, if_true]

/-- `OP` stands in bits 11 to 8 (R28). -/
theorem Block.getLsbD_statusFields_op {W : Nat} (b : Block W) (j : Nat) :
    b.statusFields.getLsbD (8 + j) = b.op.getLsbD j := by
  rw [Nat.add_comm]
  simp only [Block.statusFields, BitVec.getLsbD_concat_succ, BitVec.getLsbD_append, Nat.not_lt.2 (Nat.le_add_left 4 j),
    if_false, Nat.add_sub_cancel]

/-- Settles O11: bit by bit, from the fields side by side. -/
theorem statusWordLayout : Obligations.StatusWordLayout := by
  intro s
  have hbit := s.block.getLsbD_status (le_trans (by decide) s.cfg.W_ge)
  have hbusy : s.block.status.getLsbD 0 = s.block.busy := by simp [hbit, Block.statusFields]
  have hdone : s.block.status.getLsbD 1 = s.block.done := by
    simp [hbit, Block.statusFields]
  refine ⟨hbusy, hdone, ?_, ?_, ?_, ?_, ?_, hbusy.symm, hdone.symm⟩
  · simp [hbit, Block.statusFields]
  · simp [hbit, Block.statusFields]
  · intro j hj
    rw [hbit, Block.getLsbD_statusFields_ecode _ hj]
  · intro j _
    rw [hbit, Block.getLsbD_statusFields_op]
  · intro j hj
    rw [hbit, BitVec.getLsbD_of_ge _ _ hj]

/-- The width is itself a value that a register of that width holds (R29). -/
theorem fits_width {W : Nat} (hW : 3 ≤ W) : fits W W := by
  obtain ⟨k, rfl⟩ : ∃ k, W = k + 2 := ⟨W - 2, by omega⟩
  have hk : k + 2 < 2 ^ (k + 1) := by
    have := Nat.lt_two_pow_self (n := k)
    rw [pow_succ]
    omega
  exact ⟨(neg_nonpos.2 (by positivity)).trans (Int.natCast_nonneg _), by exact_mod_cast hk⟩

/-- The unit's turn does not change the width. -/
theorem unitTurn_cfg {s t : State} (h : unitTurn s = .next t) : t.cfg = s.cfg := by
  obtain ⟨-, rfl⟩ | ⟨_, -, -, -, rfl⟩ := unitTurn_cases h <;> rfl

/-- No step changes the width (R29). -/
theorem step_cfg {s t : State} (h : step s = .next t) : t.cfg = s.cfg := by
  obtain ⟨-, hu⟩ | ⟨ts, ⟨_, -, rfl⟩ | ⟨_, _, -, rfl⟩ | ⟨-, hu⟩ | ⟨_, _, -, rfl⟩⟩ := step_cases h
  · exact unitTurn_cfg hu
  · rfl
  · rfl
  · exact unitTurn_cfg (s := s.withTurns ts) hu
  · rfl

/-- Settles O55: no turn changes the width, and `CFG` holds it without wrapping. -/
theorem widthNeverChanges : Obligations.WidthNeverChanges := by
  refine ⟨fun _ _ => step_cfg, fun s => ?_⟩
  have hW := s.cfg.W_ge
  exact sval_enc_of_fits (by omega) (fits_width (by omega))

/-! ## A command word placed for the next step (R31, R71) -/

/-- Every command's word decodes to that command (R73). -/
theorem decodeCommand_encode {W : Nat} (hW : 32 ≤ W) (i : Instr) : decodeCommand (encode W i) = .command i := by
  have hcode : (encode W i).toNat = i.code :=
    (Laws.CommandWord.of_code_lt (by cases i <;> decide) W hW).2
  rw [decodeCommand, hcode, decodeNat_code]

/-- A command word written to `CMD` of an idle block runs the command (R95). -/
theorem writePort_command {s : State} {data : Word s.cfg.W} {i : Instr} (hb : s.block.busy = false)
    (hd : decodeCommand data = .command i) : writePort s cmdAddr data = exec i s := by
  simp [writePort, issueCommand, hb, hd]

/-- The word that `withFetchWord` places for a command is the command's (R71). -/
theorem withFetchWord_code (s : State) (i : Instr) :
    s.withFetchWord 32 i.code = s.withTurns (.wr cmdAddr (encode s.cfg.W i) :: s.port.turns) := by
  have hcode : i.code % 2 ^ 32 = i.code := by cases i <;> rfl
  rw [State.withFetchWord, hcode, encode]

/-- Settles O7: the step takes the write that was placed first, and its word decodes to the command. -/
theorem fetchedWordRunsNext : Obligations.FetchedWordRunsNext := by
  intro s i hb
  rw [withFetchWord_code, step_cons rfl]
  exact writePort_command hb (decodeCommand_encode s.cfg.W_ge i)

/-! ## Zero operands (R38) -/

@[simp] theorem sval_zero (W : Nat) : sval 0#W = 0 := by simp [sval]

/-- On zero operands every computing command's domain check fails (R38). -/
theorem Block.outcome_of_zero {W : Nat} {b : Block W} {i : Instr} (hi : i.computing = true)
    (hz : ∀ r, b.get r = 0#W) : b.outcome i = .invalidDomain := by
  have hop : ∀ r, b.operand r = 0 := fun r => by rw [Block.operand, hz, sval_zero]
  cases i with
  | clr => cases hi
  | modexp => simp [Block.outcome, Block.modExpResult, modExpOp, hop]
  | jacobi => simp [Block.outcome, Block.jacobiResult, jacobiOp, hop]
  | lucas => simp [Block.outcome, Block.lucasResult, lucasOp, hop]
  | mrtest => simp [Block.outcome, Block.mrTestResult, mrTestOp, hop]

/-- Settles O24: the command completes, and its function gives `InvalidDomain`. -/
theorem zeroOperandsAreInvalid : Obligations.ZeroOperandsAreInvalid := by
  intro i s hi ⟨hb, hop⟩ hz
  rw [exec_computing hi, Block.runCommand_running _ hb hop, Block.outcome_of_zero hi hz]
  rfl

/-! ## The invariants of the status fields (R30) -/

/-- The reset block has the invariants. -/
theorem Block.inv_atReset (W : Nat) : (Block.atReset W).Inv := by
  simp [Block.Inv, ecodeNone, ecodeInvalidDomain, ecodeIllegalCommand]

/-- A refused write keeps the invariants: none speaks of `AERR` (R92, R93). -/
theorem Block.inv_refuseWrite {W : Nat} {b : Block W} (h : b.Inv) : b.refuseWrite.Inv := h

/-- A write to an operand register keeps the invariants: none speaks of one (R91). -/
theorem Block.inv_set {W : Nat} {b : Block W} (h : b.Inv) (r : Reg) (v : Word W) : (b.set r v).Inv := by
  cases r <;> exact h

/-- Acceptance of a computing command establishes the invariants (R94). -/
theorem Block.inv_accept {W : Nat} (b : Block W) {code : Nat} (h1 : 1 ≤ code) (h4 : code ≤ 4) :
    (b.accept code).Inv := by
  have hmod : code % 16 = code := by omega
  simp [Block.Inv, ecodeNone, ecodeInvalidDomain, ecodeIllegalCommand, hmod, h1, h4]

/-- An illegal word written to an idle block establishes the invariants (R98). -/
theorem Block.inv_raiseIllegalCommand {W : Nat} {b : Block W} (hb : b.busy = false) (c : Word W) :
    (b.raiseIllegalCommand c).Inv := by
  simp [Block.Inv, hb]

/-- Completion keeps the invariants (R96): a running command has shown no error and no result yet. -/
theorem Block.inv_complete {W : Nat} {b : Block W} (h : b.Inv) (hb : b.busy = true) (out : OpResult) :
    (b.complete out).Inv := by
  obtain ⟨-, herr, hecode, hres0, hres1, -, -⟩ := h.1 hb
  cases out with
  | invalidDomain => simp [Block.Inv, hres0, hres1]
  | results r0 r1 => simp [Block.Inv, herr, hecode, ecodeNone, ecodeInvalidDomain, ecodeIllegalCommand]

/-- A write keeps the invariants, whatever the address and the word (R95). -/
theorem Block.inv_afterWrite {W : Nat} {b : Block W} (h : b.Inv) (addr : Addr) (data : Word W) :
    (b.afterWrite addr data).Inv := by
  unfold Block.afterWrite
  split
  · exact Block.inv_refuseWrite h
  · rename_i hb
    rw [Bool.not_eq_true] at hb
    split
    case h_1 r _ => exact Block.inv_set h r data
    case h_2 =>
      split_ifs with h0 h4
      · exact Block.inv_atReset W
      · exact Block.inv_accept b (by omega) h4
      · exact Block.inv_raiseIllegalCommand hb data
    all_goals exact Block.inv_refuseWrite h

/-- The unit's turn keeps the invariants (R96). -/
theorem inv_unitTurn {s t : State} (hs : s.Inv) (h : unitTurn s = .next t) : t.Inv := by
  obtain ⟨-, rfl⟩ | ⟨_, -, hb, -, rfl⟩ := unitTurn_cases h
  · exact hs
  · exact Block.inv_complete hs hb _

/-- Settles O46: each turn's effect on the block keeps the invariants. -/
theorem stepKeepsInvariants : Obligations.StepKeepsInvariants := by
  intro s t hs h
  obtain ⟨-, hu⟩ | ⟨ts, ⟨_, -, rfl⟩ | ⟨addr, data, -, rfl⟩ | ⟨-, hu⟩ | ⟨_, _, -, rfl⟩⟩ := step_cases h
  · exact inv_unitTurn hs hu
  · exact hs
  · exact Block.inv_afterWrite hs addr data
  · exact inv_unitTurn (s := s.withTurns ts) hs hu
  · exact Block.inv_atReset s.cfg.W

/-- Settles O45: the block of `State.reset` is the reset block. -/
theorem resetSatisfiesInvariants : Obligations.ResetSatisfiesInvariants := Block.inv_atReset Config.atReset.W

/-! ## No run stops (R100, R210) -/

/-- The numbers 1 to 4 are those of the computing commands (R73). -/
theorem Instr.exists_computing_of_code {k : Nat} (h1 : 1 ≤ k) (h4 : k ≤ 4) :
    ∃ i : Instr, i.computing = true ∧ k = i.code := by
  obtain rfl | rfl | rfl | rfl : k = 1 ∨ k = 2 ∨ k = 3 ∨ k = 4 := by omega
  · exact ⟨.modexp, rfl, rfl⟩
  · exact ⟨.jacobi, rfl, rfl⟩
  · exact ⟨.lucas, rfl, rfl⟩
  · exact ⟨.mrtest, rfl, rfl⟩

/-- With the invariants the unit's turn is no fault: a busy block has a computing command in `OP`. -/
theorem exists_unitTurn_next {s : State} (hs : s.Inv) : ∃ t, unitTurn s = .next t := by
  cases hb : s.block.busy with
  | false => exact ⟨s, unitTurn_idle hb⟩
  | true =>
    obtain ⟨-, -, -, -, -, h1, h4⟩ := hs.1 hb
    obtain ⟨i, hi, hop⟩ := Instr.exists_computing_of_code h1 h4
    exact ⟨_, unitTurn_running hb hop hi⟩

/-- With the invariants a step answers a next state. -/
theorem exists_step_next {s : State} (hs : s.Inv) : ∃ t, step s = .next t := by
  cases hp : s.port.turns with
  | nil => rw [step_nil hp]; exact exists_unitTurn_next hs
  | cons x ts =>
    rw [step_cons hp]
    cases x with
    | rd addr => exact ⟨_, rfl⟩
    | wr addr data => exact ⟨_, writePort_eq (s.withTurns ts) addr data⟩
    | unit => exact exists_unitTurn_next (s := s.withTurns ts) hs
    | reset w c => exact ⟨_, rfl⟩

/-- Settles O47, by induction on the number of steps: a step answers a next state, which has the invariants again. -/
theorem runsNeverStop : Obligations.RunsNeverStop := by
  intro k
  induction k with
  | zero => exact fun s _ => ⟨s, rfl⟩
  | succ k ih =>
    intro s hs
    obtain ⟨t, hst⟩ := exists_step_next hs
    rw [SafeFor, run_succ k hst]
    exact ih t (stepKeepsInvariants s t hs hst)

end Sys2Proof.Machine
end

