-- ==== Sys2Proof/Proofs/Memory.lean ====
section
/-! SUPPORT. Host transactions against a completion (R56, R59): what reads and writes leave of a running command's outcome
(R92, R96), and what reads of the results see (R90, R101). -/

namespace Sys2Proof.Machine

open Sys2Proof

/-! ## One step for each turn -/

/-- A step that takes a read leaves what the register space shows in the port (R90). -/
theorem step_rd {s : State} {addr : Addr} {ts : List (Turn s.cfg.W)} (h : s.port.turns = .rd addr :: ts) :
    step s = .next ((s.withTurns ts).withRead (s.block.read (decodeAddr addr))) :=
  step_cons h

/-- A step that takes a write changes the block alone (R91 to R95). -/
theorem step_wr {s : State} {addr : Addr} {data : Word s.cfg.W} {ts : List (Turn s.cfg.W)}
    (h : s.port.turns = .wr addr data :: ts) :
    step s = .next ((s.withTurns ts).withBlock (s.block.afterWrite addr data)) :=
  (step_cons h).trans (writePort_eq (s.withTurns ts) addr data)

/-- A step that takes the unit's turn completes the running command (R96). -/
theorem step_unit_running {s : State} {i : Instr} {ts : List (Turn s.cfg.W)} (h : s.port.turns = .unit :: ts)
    (hb : s.block.busy = true) (hop : s.block.op.toNat = i.code) (hi : i.computing = true) :
    step s = .next ((s.withTurns ts).withBlock (s.block.complete (s.block.outcome i))) :=
  (step_cons h).trans (unitTurn_running (s := s.withTurns ts) hb hop hi)

/-- The unit's turn on an idle block changes nothing (R230). -/
theorem eq_of_unitTurn_idle {s t : State} (hb : s.block.busy = false) (h : unitTurn s = .next t) : t = s := by
  rw [unitTurn_idle hb] at h
  exact (Host.Outcome.next.inj h).symm

/-! ## Completion and `AERR` (R96, R214) -/

/-- With the invariants a busy block's `OP` names a computing command (R30). -/
theorem Block.exists_running {W : Nat} {b : Block W} (h : b.Inv) (hb : b.busy = true) :
    ∃ i : Instr, i.computing = true ∧ b.op.toNat = i.code := by
  obtain ⟨-, -, -, -, -, h1, h4⟩ := h.1 hb
  exact Instr.exists_computing_of_code h1 h4

/-- No command's function reads `AERR` (R72). -/
theorem Block.outcome_aerr {W : Nat} (b : Block W) (f : Bool) (i : Instr) :
    Block.outcome { b with aerr := f } i = b.outcome i := by
  cases i <;> rfl

/-- Completion hands `AERR` through (R96). -/
theorem Block.complete_aerr {W : Nat} (b : Block W) (f : Bool) (out : OpResult) :
    Block.complete { b with aerr := f } out = { b.complete out with aerr := f } := by
  cases out <;> rfl

/-- The unit completes the running command alike with either value of `AERR`, which stays (R96, R214). -/
theorem step_complete_aerr {c : Config} {b : Block c.W} {i : Instr} (hb : b.busy = true) (hop : b.op.toNat = i.code)
    (hi : i.computing = true) (f : Bool) (ts : List (Turn c.W)) (rd : Option (Word c.W)) :
    step ⟨c, { b with aerr := f }, ⟨.unit :: ts, rd⟩⟩
      = .next ⟨c, { b.complete (b.outcome i) with aerr := f }, ⟨ts, rd⟩⟩ := by
  rw [← Block.outcome_aerr b f i, ← Block.complete_aerr]
  exact step_unit_running rfl hb hop hi

/-! ## Host turns on a busy block (R59, R92) -/

/-- A write to a busy block is refused, whatever the address and the word (R92). -/
theorem Block.afterWrite_busy {W : Nat} {b : Block W} (hb : b.busy = true) (addr : Addr) (data : Word W) :
    b.afterWrite addr data = b.refuseWrite := by
  simp [Block.afterWrite, hb]

/-- A host turn on a busy block changes `AERR` alone, and that only where it is a write (R90, R92). -/
theorem step_host_busy {c : Config} {b : Block c.W} (hb : b.busy = true) {t : Turn c.W} (ht : t.isHost = true)
    (ts : List (Turn c.W)) (rd : Option (Word c.W)) :
    ∃ rd', step ⟨c, b, ⟨t :: ts, rd⟩⟩ = .next ⟨c, { b with aerr := b.aerr || t.isWrite }, ⟨ts, rd'⟩⟩ := by
  cases t with
  | rd addr =>
    rw [Turn.isWrite, Bool.or_false]
    exact ⟨_, step_rd rfl⟩
  | wr addr data =>
    rw [Turn.isWrite, Bool.or_true, step_wr rfl, Block.afterWrite_busy hb]
    exact ⟨rd, rfl⟩
  | unit => cases ht
  | reset w l => cases ht

/-- Host turns on a busy block change `AERR` alone, and that only where one of them is a write. -/
theorem run_host_busy {c : Config} (ts us : List (Turn c.W)) (hts : ∀ t ∈ ts, t.isHost = true) {b : Block c.W}
    (hb : b.busy = true) (rd : Option (Word c.W)) :
    ∃ rd', ∀ k, core.run (ts.length + k) ⟨c, b, ⟨ts ++ us, rd⟩⟩
      = core.run k ⟨c, { b with aerr := b.aerr || ts.any Turn.isWrite }, ⟨us, rd'⟩⟩ := by
  induction ts generalizing b rd with
  | nil => exact ⟨rd, fun k => by simp⟩
  | cons t ts ih =>
    obtain ⟨ht, hts⟩ := List.forall_mem_cons.1 hts
    obtain ⟨rd₁, hstep⟩ := step_host_busy hb ht (ts ++ us) rd
    obtain ⟨rd₂, hrun⟩ := ih hts (b := { b with aerr := b.aerr || t.isWrite }) hb rd₁
    refine ⟨rd₂, fun k => ?_⟩
    rw [List.length_cons, Nat.add_right_comm, List.cons_append, run_succ _ hstep, hrun, List.any_cons, Bool.or_assoc]

/-- Settles O49: the host's turns reach the unit's turn with `AERR` alone changed, and completion hands `AERR` through. -/
theorem interleavingKeepsOutcome : Obligations.InterleavingKeepsOutcome := by
  intro s ts hs hb hts
  obtain ⟨i, hi, hop⟩ := Block.exists_running hs hb
  obtain ⟨rd, hrun⟩ := run_host_busy ts [.unit] hts hb s.port.rdata
  have hunit := step_complete_aerr hb hop hi (s.block.aerr || ts.any Turn.isWrite) [] rd
  exact ⟨_, rd, unitTurn_running hb hop hi, (hrun 1).trans (run_succ 0 hunit)⟩

/-! ## Reads of the results (R56, R90, R101) -/

/-- A write to another address than `CMD` changes no result and no status field but `AERR` (R91, R92, R93). -/
theorem Block.afterWrite_of_ne_cmd {W : Nat} (b : Block W) {addr : Addr} (h : addr ≠ cmdAddr) (data : Word W) :
    (b.afterWrite addr data).res0 = b.res0 ∧ (b.afterWrite addr data).res1 = b.res1
    ∧ (b.afterWrite addr data).busy = b.busy ∧ (b.afterWrite addr data).done = b.done
    ∧ (b.afterWrite addr data).err = b.err ∧ (b.afterWrite addr data).ecode = b.ecode
    ∧ (b.afterWrite addr data).op = b.op := by
  unfold Block.afterWrite
  split
  · simp
  · cases ha : decodeAddr addr with
    | operand r => simp
    | cmd => exact absurd (decodeAddr_eq_cmd ha) h
    | _ => simp

/-- A step of an idle block other than a write to `CMD` and a reset leaves it idle, with both results (R56, R101). -/
theorem step_idle_keeps_results {s t : State} (hb : s.block.busy = false) (h : step s = .next t) (hr : ¬ s.resetNext)
    (hc : ¬ ∃ data, s.writeNext cmdAddr data) :
    t.block.busy = false ∧ t.block.res0.toNat = s.block.res0.toNat ∧ t.block.res1.toNat = s.block.res1.toNat := by
  obtain ⟨-, hu⟩ | ⟨ts, ⟨_, -, rfl⟩ | ⟨addr, data, hp, rfl⟩ | ⟨-, hu⟩ | ⟨w, l, hp, -⟩⟩ := step_cases h
  · obtain rfl := eq_of_unitTurn_idle hb hu
    exact ⟨hb, rfl, rfl⟩
  · exact ⟨hb, rfl, rfl⟩
  · have hne : addr ≠ cmdAddr := by
      rintro rfl
      exact hc ⟨data, ts, hp⟩
    obtain ⟨h0, h1, hbusy, -⟩ := s.block.afterWrite_of_ne_cmd hne data
    exact ⟨hbusy.trans hb, congrArg _ h0, congrArg _ h1⟩
  · obtain rfl := eq_of_unitTurn_idle (s := s.withTurns ts) hb hu
    exact ⟨hb, rfl, rfl⟩
  · exact absurd ⟨w, l, ts, hp⟩ hr

/-- Settles O58: the first read sees the zero of the running command, the second what the completion wrote. -/
theorem resultReadsAroundCompletion : Obligations.ResultReadsAroundCompletion := by
  refine ⟨fun _ _ => step_idle_keeps_results, fun s ts hs hb hp => ?_⟩
  obtain ⟨i, hi, hop⟩ := Block.exists_running hs hb
  obtain ⟨-, -, -, hres0, -⟩ := hs.1 hb
  have hread0 : step s = .next ((s.withTurns (.unit :: .rd res1Addr :: ts)).withRead 0#_) := by
    have hzero : s.block.read (decodeAddr res0Addr) = 0#_ := hres0.trans (enc_zero _)
    rw [step_rd hp, hzero]
  refine ⟨_, unitTurn_running (s := s.withTurns ts) hb hop hi, hread0, ?_⟩
  have hunit := step_unit_running (s := (s.withTurns (.unit :: .rd res1Addr :: ts)).withRead 0#_) rfl hb hop hi
  have hread1 := step_rd
    (s := ((s.withTurns (.rd res1Addr :: ts)).withRead 0#_).withBlock (s.block.complete (s.block.outcome i))) rfl
  rw [run_succ 2 hread0, run_succ 1 hunit]
  exact run_succ 0 hread1

end Sys2Proof.Machine
end

