-- ==== Sys2Proof/Proofs/Encoding.lean ====
section
/-! SUPPORT. The encodings (R70, R71, R73, R74): command words and the register map read both ways. What the encoding says
of a command's operands and results: the registers it reads (R72), the symbol as a word (R77, R136). -/

namespace Sys2Proof.Machine

open Sys2Proof

/-! ## Command words (R71, R73, R74) -/

/-- A number decodes to a command exactly when it is that command's (R73). -/
theorem decodeNat_eq_command_iff {k : Nat} {i : Instr} : decodeNat k = .command i ↔ k = i.code := by
  refine ⟨code_of_decodeNat, ?_⟩
  rintro rfl
  exact decodeNat_code i

/-- The highest number of a command is 4 (R73). -/
theorem Instr.code_le_four (i : Instr) : i.code ≤ 4 := by
  cases i <;> decide

/-- A number above 4 is illegal, and no other is (R74). -/
theorem decodeNat_eq_illegal_iff {k : Nat} : decodeNat k = .illegalCommand ↔ 4 < k := by
  refine ⟨lt_of_decodeNat_illegal, fun hk => ?_⟩
  cases hd : decodeNat k with
  | illegalCommand => rfl
  | command i =>
    have hle := Instr.code_le_four i
    rw [← code_of_decodeNat hd] at hle
    omega

/-- The numbers up to 4, and no others, decode to a command (R73, R74). -/
theorem exists_decodeNat_eq_command_iff {k : Nat} : (∃ i, decodeNat k = .command i) ↔ k ≤ 4 := by
  rw [← Nat.not_lt, ← decodeNat_eq_illegal_iff]
  cases decodeNat k <;> simp

/-- A command's word has the command's number (R71). -/
theorem toNat_encode {W : Nat} (hW : 32 ≤ W) (i : Instr) : (encode W i).toNat = i.code :=
  (Laws.CommandWord.of_code_lt ((Instr.code_le_four i).trans_lt (by decide)) W hW).2

/-- Settles O1: a word decodes by its number, and a command's word is the one with the command's number. -/
theorem decodeAndEncodeAgree : Obligations.DecodeAndEncodeAgree := by
  intro W c hW
  have hcommand : ∀ i, decodeCommand c = .command i ↔ c.toNat = i.code := fun i => decodeNat_eq_command_iff
  have hillegal : decodeCommand c = .illegalCommand ↔ 4 < c.toNat := decodeNat_eq_illegal_iff
  refine ⟨fun i => ?_, hcommand .clr, hcommand .modexp, hcommand .jacobi, hcommand .lucas, hcommand .mrtest, ?_⟩
  · rw [hcommand, ← toNat_encode hW, BitVec.toNat_inj]
  · rw [hillegal]
    simp only [List.mem_cons, List.not_mem_nil, or_false]
    omega

/-- The two field checks of R71 bound the word by 4. -/
theorem commandWordWf_iff {W : Nat} (c : Word W) : commandWordWf c = true ↔ c.toNat ≤ 4 := by
  simp only [commandWordWf, zeroFieldClear, opcodeAssigned, Bool.and_eq_true, beq_iff_eq, decide_eq_true_eq]
  omega

/-- Settles O2: both sides say that the word is at most 4. -/
theorem legalWordsAreTheFieldChecks : Obligations.LegalWordsAreTheFieldChecks :=
  fun _ c => (commandWordWf_iff c).trans exists_decodeNat_eq_command_iff.symm

/-- Settles O3: the decoder evaluated at each word. -/
theorem writtenWordsDecode : Obligations.WrittenWordsDecode := by
  unfold Obligations.WrittenWordsDecode
  decide

/-- Settles O4: the map evaluated at each address; that it inverts `Reg.addr` is `decodeAddr_regAddr`. -/
theorem registerMap : Obligations.RegisterMap :=
  ⟨rfl, rfl, rfl, rfl, rfl, rfl, rfl, rfl, rfl, rfl, rfl, rfl, rfl, rfl, rfl, rfl, decodeAddr_regAddr⟩

/-- Settles O5: the step takes the write, and the write runs the command. -/
theorem stepRunsDecodedCommand : Obligations.StepRunsDecodedCommand :=
  fun s _ ts _ hp hb hd => (step_cons hp).trans (writePort_command (s := s.withTurns ts) hb hd)

/-! ## The registers a command reads (R72) -/

theorem Block.operand_set_of_ne {W : Nat} (b : Block W) {r r' : Reg} (v : Word W) (h : r' ≠ r) :
    (b.set r v).operand r' = b.operand r' :=
  congrArg sval (Block.get_set_of_ne b v h)

/-- A command's function depends on the registers of its row alone (R72). -/
theorem Block.outcome_congr {W : Nat} {b c : Block W} {i : Instr} (h : ∀ r ∈ i.reads, b.operand r = c.operand r) :
    b.outcome i = c.outcome i := by
  cases i <;> simp only [Instr.reads, List.forall_mem_cons] at h
  case clr => rfl
  case modexp => simp [Block.outcome, Block.modExpResult, h]
  case jacobi => simp [Block.outcome, Block.jacobiResult, h]
  case lucas => simp [Block.outcome, Block.lucasResult, h]
  case mrtest => simp [Block.outcome, Block.mrTestResult, h]

theorem Block.accept_set {W : Nat} (b : Block W) (r : Reg) (v : Word W) (code : Nat) :
    (b.set r v).accept code = (b.accept code).set r v := by
  cases r <;> rfl

theorem Block.refuseWrite_set {W : Nat} (b : Block W) (r : Reg) (v : Word W) :
    (b.set r v).refuseWrite = b.refuseWrite.set r v := by
  cases r <;> rfl

theorem Block.complete_set {W : Nat} (b : Block W) (r : Reg) (v : Word W) (out : OpResult) :
    (b.set r v).complete out = (b.complete out).set r v := by
  cases out <;> cases r <;> rfl

/-- With its outcome given, no phase of a computing command looks at an operand register (R94, R96). -/
theorem Block.runCommand_set {W : Nat} (b : Block W) (r : Reg) (v : Word W) (i : Instr) (out : OpResult) :
    (b.set r v).runCommand i out = (b.runCommand i out).set r v := by
  simp only [Block.runCommand, Block.set_busy, Block.set_op]
  split_ifs
  · exact Block.complete_set b r v out
  · exact Block.refuseWrite_set b r v
  · exact Block.accept_set b r v i.code

/-- Settles O23: the outcome is the same, and every phase hands the register's content through. -/
theorem commandsReadOnlyTheirOperands : Obligations.CommandsReadOnlyTheirOperands := by
  intro i s r v hi hr
  have hout : (s.block.set r v).outcome i = s.block.outcome i :=
    Block.outcome_congr fun r' hr' => Block.operand_set_of_ne _ _ (ne_of_mem_of_not_mem hr' hr)
  refine ⟨_, exec_computing hi s, ?_⟩
  rw [exec_computing hi, State.withBlock_block, hout, Block.runCommand_set]

/-! ## The symbol in `RES0` (R77, R136) -/

/-- The pass that negates a negative `a` (R131, R134): it leaves enough passes for what the engine does without a sign. -/
theorem jacobiLoop_neg {passes k n : Nat} (hk : k ≠ 0) (hodd : n % 2 = 1) (h : jacobiMeasure k n < passes) :
    jacobiLoop (passes + 1) (-k) n 1 = jacobiSym (-k) n := by
  rw [jacobiLoop]
  by_cases h1 : n = 1
  · subst h1
    simp
  · rw [if_neg (by omega), if_neg (by omega), if_neg (by omega), if_neg (by omega), if_pos (by omega), neg_neg, one_mul,
      jacobiLoop_nat passes k n _ hodd h, jacobiSgn_eq hodd]

/-- The engine computes the Jacobi symbol of number theory (R137). -/
theorem jacobi_eq_jacobiSym {a n : Int} (hn : 1 ≤ n) (hodd : n % 2 = 1) : jacobi a n = jacobiSym a n.toNat := by
  lift n to Nat using by omega
  have hodd' : n % 2 = 1 := by omega
  have hmeasure : jacobiMeasure a.natAbs n < 2 * (bitlen a.natAbs + bitlen n) + 2 := by
    unfold jacobiMeasure
    split <;> omega
  rw [jacobi, jacobiPasses, Int.natAbs_natCast, Int.toNat_natCast]
  obtain ha | ha := le_or_gt 0 a
  · lift a to Nat using ha
    rw [jacobiLoop_nat _ a n 1 hodd' (hmeasure.trans (Nat.lt_succ_self _)), one_mul]
  · obtain ⟨k, rfl⟩ := Int.exists_eq_neg_ofNat ha.le
    rw [Int.natAbs_neg, Int.natAbs_natCast] at hmeasure ⊢
    exact jacobiLoop_neg (by omega) hodd' hmeasure

/-- The symbol is zero exactly for a modulus above 1 that has a common factor with `a` (R136). -/
theorem jacobi_eq_zero_iff {a n : Int} (hn : 1 ≤ n) (hodd : n % 2 = 1) :
    jacobi a n = 0 ↔ 1 < n ∧ 1 < Int.gcd a n := by
  rw [jacobi_eq_jacobiSym hn hodd, jacobiSym.eq_zero_iff, Int.toNat_of_nonneg (by omega)]
  have hpos : 0 < Int.gcd a n := Int.gcd_pos_of_ne_zero_right a (by omega)
  have hle : (Int.gcd a n : Int) ≤ n := Int.le_of_dvd (by omega) (Int.gcd_dvd_right a n)
  omega

/-- -1 is stored as all ones (R77). -/
theorem enc_neg_one (W : Nat) : enc W (-1) = BitVec.allOnes W := by
  rw [enc, BitVec.ofInt_neg, ← BitVec.neg_one_eq_allOnes]
  rfl

/-- The symbol's word is 0, 1 or all ones, and 0 for the symbol 0 alone (R77). -/
theorem toNat_enc_symbol {W : Nat} (hW : 2 ≤ W) {j : Int} (hj : j = 0 ∨ j = 1 ∨ j = -1) :
    ((enc W j).toNat = 1 ∨ (enc W j).toNat = 0 ∨ (enc W j).toNat = 2 ^ W - 1) ∧ ((enc W j).toNat = 0 ↔ j = 0) := by
  obtain rfl | rfl | rfl := hj
  · simp
  · have hone : (1 : Int) < 2 ^ (W - 1) := one_lt_pow₀ (by decide) (by omega)
    simp [toNat_enc_of_nonneg (by omega) zero_le_one hone]
  · have hones : 1 < 2 ^ W := Nat.one_lt_two_pow (by omega)
    rw [enc_neg_one, BitVec.toNat_allOnes]
    omega

/-- In its domain `JACOBI` completes with the symbol as its result (R130, R132). -/
theorem Block.outcome_jacobi {W : Nat} {b : Block W} (hn : 1 ≤ b.operand .n) (hodd : b.operand .n % 2 = 1) :
    b.outcome .jacobi = .results (jacobi (b.operand .a) (b.operand .n)) 0 :=
  if_neg (by omega)

/-- Settles O32: the result is the word of the symbol, which is zero exactly for a common factor. -/
theorem jacobiResultWord : Obligations.JacobiResultWord := by
  intro s ⟨hb, hop⟩ hn hodd
  have hexec := exec_computing (i := .jacobi) rfl s
  rw [Block.runCommand_running _ hb hop, Block.outcome_jacobi hn hodd] at hexec
  refine ⟨_, hexec, ?_⟩
  rw [Block.complete_results_res0, ← jacobi_eq_zero_iff hn hodd]
  have hsymbol := jacobiSym.trichotomy (s.block.operand .a) (s.block.operand .n).toNat
  rw [← jacobi_eq_jacobiSym hn hodd] at hsymbol
  exact toNat_enc_symbol (le_trans (by decide) s.cfg.W_ge) hsymbol

end Sys2Proof.Machine
end

