-- ==== Sys2Proof/Proofs/Control.lean ====
section
/-! SUPPORT. Control at the port: what each write does and which check comes first (R91 to R98), what each read returns
(R90), the two phases of a computing command (R94, R96), and how a running command ends (R100, R101, R231). -/

namespace Sys2Proof.Machine

open Sys2Proof

/-! ## A busy block completes (R100) -/

/-- Completion ends the command with `DONE` set, and leaves `AERR` and `OP` (R96). -/
theorem Block.complete_status {W : Nat} (b : Block W) (out : OpResult) :
    (b.complete out).busy = false ∧ (b.complete out).done = true ∧ (b.complete out).aerr = b.aerr
    ∧ (b.complete out).op = b.op := by
  cases out <;> simp

/-- After the unit's turn the block is idle (R96). -/
theorem busy_of_unitTurn {s t : State} (h : unitTurn s = .next t) : t.block.busy = false := by
  obtain ⟨hb, rfl⟩ | ⟨i, -, -, -, rfl⟩ := unitTurn_cases h
  · exact hb
  · exact (s.block.complete_status (s.block.outcome i)).1

/-- The unit's turn leaves the turns still to be taken. -/
theorem length_turns_of_unitTurn {s t : State} (h : unitTurn s = .next t) :
    t.port.turns.length = s.port.turns.length := by
  obtain ⟨-, rfl⟩ | ⟨_, -, -, -, rfl⟩ := unitTurn_cases h <;> rfl

/-- A step takes one turn out of the schedule, where one is left. -/
theorem length_turns_of_step {s t : State} (h : step s = .next t) :
    t.port.turns.length = s.port.turns.length - 1 := by
  obtain ⟨hp, hu⟩ | ⟨ts, ⟨_, hp, rfl⟩ | ⟨_, _, hp, rfl⟩ | ⟨hp, hu⟩ | ⟨_, _, hp, rfl⟩⟩ := step_cases h
  · simp [length_turns_of_unitTurn hu, hp]
  · simp [hp]
  · simp [hp]
  · simp [length_turns_of_unitTurn hu, hp]
  · simp [hp]

/-- Settles O48, by induction on the number of turns left: a step takes one of them and keeps the invariants, and where
none is left the step is the unit's. -/
theorem busyBlockCompletes : Obligations.BusyBlockCompletes := by
  intro s hs
  obtain ⟨k, hk⟩ : ∃ k, s.port.turns.length = k := ⟨_, rfl⟩
  rw [hk]
  induction k generalizing s with
  | zero =>
    have hnil : s.port.turns = [] := List.length_eq_zero_iff.1 hk
    obtain ⟨t, hunit⟩ := exists_unitTurn_next hs
    have hlength : t.port.turns.length = 0 := (length_turns_of_unitTurn hunit).trans hk
    exact ⟨t, run_succ 0 ((step_nil hnil).trans hunit), List.length_eq_zero_iff.1 hlength, busy_of_unitTurn hunit⟩
  | succ k ih =>
    obtain ⟨u, hstep⟩ := exists_step_next hs
    have hlength : u.port.turns.length = k := by rw [length_turns_of_step hstep, hk, Nat.add_sub_cancel]
    rw [run_succ (k + 1) hstep]
    exact ih u (stepKeepsInvariants s u hs hstep) hlength

/-! ## The effect of a write (R91 to R95, R98) -/

/-- An operand register of an idle block takes the word (R91). -/
theorem Block.afterWrite_operand {W : Nat} {b : Block W} (hb : b.busy = false) (r : Reg) (data : Word W) :
    b.afterWrite r.addr data = b.set r data := by
  simp [Block.afterWrite, hb]

/-- `CMD` of an idle block takes the word as `CLR`, as acceptance or as an illegal command (R95). -/
theorem Block.afterWrite_cmd {W : Nat} {b : Block W} (hb : b.busy = false) (data : Word W) :
    b.afterWrite cmdAddr data
      = if data.toNat = 0 then b.clear
        else if data.toNat ≤ 4 then b.accept data.toNat
        else b.raiseIllegalCommand data := by
  simp [Block.afterWrite, hb]

/-- Every address but an operand register's and `CMD`'s refuses the write, busy or idle (R92, R93). -/
theorem Block.afterWrite_refused {W : Nat} (b : Block W) {addr : Addr} (h7 : 7 < addr.toNat) (hcmd : addr ≠ cmdAddr)
    (data : Word W) : b.afterWrite addr data = b.refuseWrite := by
  unfold Block.afterWrite
  split
  · rfl
  · cases ha : decodeAddr addr with
    | operand r =>
      have := Reg.toNat_addr_le r
      rw [← decodeAddr_eq_operand ha] at this
      omega
    | cmd => exact absurd (decodeAddr_eq_cmd ha) hcmd
    | _ => rfl

/-- Settles O8: a step that takes a write has the effect of the write, whose refused places are written out one by one. -/
theorem writeDispatch : Obligations.WriteDispatch := by
  intro s addr data ts hp
  rw [step_wr hp, Block.afterWrite]
  cases decodeAddr addr <;> rfl

/-- Settles O12: the write stores the word, and `Block.set` changes one operand register. -/
theorem operandWriteWhileIdle : Obligations.OperandWriteWhileIdle := by
  intro s r data ts hp hb
  have hstep := step_wr hp
  rw [Block.afterWrite_operand hb] at hstep
  refine ⟨_, hstep, Block.get_set_same _ r data, fun r' => Block.get_set_of_ne _ data, ?_⟩
  simp

/-- Settles O13: the busy check comes before the address and the word. -/
theorem writeWhileBusyRefused : Obligations.WriteWhileBusyRefused := by
  intro s addr data ts hp hb
  rw [step_wr hp, Block.afterWrite_busy hb, Block.refuseWrite]

/-- Settles O14: the listed addresses are above the operand registers', and none is `CMD`'s. -/
theorem readOnlyWriteRefused : Obligations.ReadOnlyWriteRefused := by
  intro s addr data ts hp _ haddr
  have h7 : 7 < addr.toNat := by
    simp only [List.mem_cons, List.not_mem_nil, or_false] at haddr
    omega
  have hcmd : addr ≠ cmdAddr := by
    rintro rfl
    exact absurd haddr (by decide)
  rw [step_wr hp, Block.afterWrite_refused _ h7 hcmd, Block.refuseWrite]

/-- Settles O15: the word is above 0 and at most 4, so it is accepted under its own number. -/
theorem acceptanceEffect : Obligations.AcceptanceEffect := by
  intro s data ts hp hb hdata
  have hrange : 1 ≤ data.toNat ∧ data.toNat ≤ 4 := by
    simp only [List.mem_cons, List.not_mem_nil, or_false] at hdata
    omega
  refine ⟨BitVec.ofNat 4 data.toNat, ?_, ?_⟩
  · rw [BitVec.toNat_ofNat, Nat.mod_eq_of_lt (by omega)]
  · rw [step_wr hp, Block.afterWrite_cmd hb, if_neg (by omega), if_pos hrange.2, Block.accept, enc_zero, ecodeNone]

/-- Settles O16: the word is above 4, so it is reported. -/
theorem illegalCommandEffect : Obligations.IllegalCommandEffect := by
  intro s data ts hp hb hdata
  have hgt : 4 < data.toNat := by
    simp only [List.mem_cons, List.not_mem_nil, or_false] at hdata
    omega
  refine ⟨BitVec.ofNat 4 data.toNat, BitVec.toNat_ofNat _ _, ?_⟩
  rw [step_wr hp, Block.afterWrite_cmd hb, if_neg (by omega), if_neg (by omega), Block.raiseIllegalCommand, enc_zero,
    ecodeIllegalCommand]

/-! ## What a read returns (R90) -/

/-- `STATUS` reads as the sum of its fields: no width that R5 allows cuts it (R28, R90). -/
theorem Block.toNat_status {W : Nat} (hW : 12 ≤ W) (b : Block W) :
    b.status.toNat = b.busy.toNat + 2 * b.done.toNat + 4 * b.err.toNat + 8 * b.aerr.toNat + 16 * b.ecode.toNat
      + 256 * b.op.toNat := by
  have hpow : 2 ^ 12 ≤ 2 ^ W := Nat.pow_le_pow_right (by decide) hW
  have hbusy := b.busy.toNat_le
  have hdone := b.done.toNat_le
  have herr := b.err.toNat_le
  have haerr := b.aerr.toNat_le
  rw [Block.status, BitVec.toNat_ofNat, Nat.mod_eq_of_lt (by omega)]

/-- The addresses from 13 on are reserved (R70). -/
theorem decodeAddr_of_ge : ∀ {addr : Addr}, 13 ≤ addr.toNat → decodeAddr addr = .reserved := by decide

/-- Settles O10: the string is what the register space shows at the address; while busy both results are zero by R30. -/
theorem readReturnsRegisterSpace : Obligations.ReadReturnsRegisterSpace := by
  intro s addr ts hp
  refine ⟨_, step_rd hp, ?_, ?_, ?_, ?_, ?_, ?_, ?_, ?_⟩
  · rintro r rfl
    rw [decodeAddr_regAddr, Block.read]
  · rintro rfl
    rfl
  · rintro rfl
    rfl
  · rintro rfl
    exact congrArg BitVec.toNat (enc_zero s.cfg.W)
  · rintro rfl
    exact s.block.toNat_status (le_trans (by decide) s.cfg.W_ge)
  · rintro rfl
    exact widthNeverChanges.2 s
  · intro h13
    rw [decodeAddr_of_ge h13]
    exact congrArg BitVec.toNat (enc_zero s.cfg.W)
  · intro hs hb haddr
    obtain ⟨-, -, -, hres0, hres1, -, -⟩ := hs.1 hb
    rw [enc_zero] at hres0 hres1
    obtain rfl | rfl := haddr
    · exact congrArg BitVec.toNat hres0
    · exact congrArg BitVec.toNat hres1

/-! ## The two phases of a computing command (R94, R96) -/

/-- The unit's turn on a block busy with a computing command is `exec` of it (R96). -/
theorem unitTurn_eq_exec {s : State} {i : Instr} (hs : s.running i) (hi : i.computing = true) :
    unitTurn s = exec i s := by
  obtain ⟨hb, hop⟩ := hs
  rw [unitTurn_running hb hop hi, exec_computing hi, Block.runCommand_running _ hb hop]

/-- Settles O6: either way the step is the unit's turn. -/
theorem unitTurnRunsCommandOfOp : Obligations.UnitTurnRunsCommandOfOp :=
  fun s ts _ hs hi =>
    ⟨fun hp => (step_cons hp).trans (unitTurn_eq_exec (s := s.withTurns ts) hs hi),
      fun hp => (step_nil hp).trans (unitTurn_eq_exec hs hi)⟩

/-- Settles O20: acceptance, completion and the refusal each leave what they do not write. -/
theorem computingCommandFrame : Obligations.ComputingCommandFrame := by
  intro i s t hi h
  rw [exec_computing hi] at h
  refine ⟨_, (Host.Outcome.next.inj h).symm, Block.get_runCommand _ i _, ?_⟩
  cases hb : s.block.busy with
  | false => simp [Block.runCommand_idle i _ hb]
  | true =>
    by_cases hop : s.block.op.toNat = i.code
    · obtain ⟨-, -, haerr, hopc⟩ := s.block.complete_status (s.block.outcome i)
      simp [Block.runCommand_running _ hb hop, hop, haerr, hopc]
    · simp [Block.runCommand_other _ hb hop, hop, Block.refuseWrite]

/-- A completion that follows an acceptance ends in a result, or in `INVALID_DOMAIN` with both results zero (R94, R96). -/
theorem Block.complete_accept_error {W : Nat} (b : Block W) (code : Nat) (out : OpResult) :
    (((b.accept code).complete out).err = false ∧ ((b.accept code).complete out).ecode = 0#4)
    ∨ (((b.accept code).complete out).err = true ∧ ((b.accept code).complete out).ecode = 1#4
      ∧ ((b.accept code).complete out).res0 = 0#W ∧ ((b.accept code).complete out).res1 = 0#W) := by
  cases out with
  | invalidDomain => exact .inr ⟨rfl, rfl, enc_zero W, enc_zero W⟩
  | results r0 r1 => exact .inl ⟨rfl, rfl⟩

/-- Settles O21: the accepted block is busy with the command, so the unit's turn there completes it. -/
theorem acceptedCommandCompletes : Obligations.AcceptedCommandCompletes := by
  intro i s hi hb
  have hop : (s.block.accept i.code).op.toNat = i.code := Instr.toNat_ofNat_code i
  have haccept := exec_computing hi s
  rw [Block.runCommand_idle _ _ hb] at haccept
  have hcomplete := exec_computing hi (s.withBlock (s.block.accept i.code))
  rw [State.withBlock_block, Block.runCommand_running _ rfl hop] at hcomplete
  obtain ⟨hbusy, hdone, haerr, hopc⟩ :=
    (s.block.accept i.code).complete_status ((s.block.accept i.code).outcome i)
  refine ⟨_, _, haccept, rfl, hop, unitTurn_eq_exec ⟨rfl, hop⟩ hi, hcomplete, hbusy, hdone, ?_, haerr, fun r => ?_,
    Block.complete_accept_error _ _ _⟩
  · rw [hopc, hop]
  · rw [Block.get_complete, Block.get_accept]

/-- Every command but `CLR` is a computing one (R102). -/
theorem Instr.computing_of_ne_clr {i : Instr} (h : i ≠ .clr) : i.computing = true := by
  cases i with
  | clr => exact absurd rfl h
  | _ => rfl

/-- Settles O19: `CLR` by its two cases; any other command by the frame, where the one that is turned away sets `AERR`. -/
theorem clearEffect : Obligations.ClearEffect := by
  refine ⟨fun s hb => ⟨s.block.clear, ?_, ?_⟩, fun s hb => ?_, fun i s t hi h => ?_⟩
  · simp [exec_clr, hb]
  · simp
  · simp [exec_clr, hb, Block.refuseWrite]
  · obtain ⟨b, rfl, hget, haerr, -, hother⟩ := computingCommandFrame i s t (Instr.computing_of_ne_clr hi) h
    refine ⟨fun hset => ?_, fun r => congrArg BitVec.toNat (hget r)⟩
    by_cases hphase : s.block.busy = false ∨ s.block.op.toNat = i.code
    · exact (haerr hphase).trans hset
    · rw [not_or, Bool.not_eq_false] at hphase
      rw [State.withBlock_block, hother hphase.1 hphase.2]

/-! ## How a command ends, and how long its results stay (R92, R101, R231) -/

/-- Settles O50: a read changes nothing and a write to a busy block is refused, so neither ends the command. -/
theorem onlyCompletionAndResetEndACommand : Obligations.OnlyCompletionAndResetEndACommand := by
  intro s t hb h hidle
  obtain ⟨hp, -⟩ | ⟨ts, ⟨_, -, rfl⟩ | ⟨addr, data, -, rfl⟩ | ⟨hp, -⟩ | ⟨w, c, hp, -⟩⟩ := step_cases h
  · exact .inr (.inl hp)
  · exact absurd hb (Bool.eq_false_iff.1 hidle)
  · rw [State.withBlock_block, Block.afterWrite_busy hb, Block.refuseWrite_busy, hb] at hidle
    cases hidle
  · exact .inr (.inr ⟨ts, hp⟩)
  · exact .inl ⟨w, c, ts, hp⟩

/-- A step of an idle block other than a write to `CMD` and a reset changes nothing of the block, or has the effect of a
write to another address (R90, R91, R93, R230). -/
theorem step_idle_block {s t : State} (hb : s.block.busy = false) (h : step s = .next t) (hr : ¬ s.resetNext)
    (hc : ¬ ∃ data, s.writeNext cmdAddr data) :
    ∃ (b : Block s.cfg.W) (p : Port s.cfg.W), t = ⟨s.cfg, b, p⟩
      ∧ (b = s.block ∨ ∃ addr data, addr ≠ cmdAddr ∧ b = s.block.afterWrite addr data) := by
  obtain ⟨-, hu⟩ | ⟨ts, ⟨_, -, rfl⟩ | ⟨addr, data, hp, rfl⟩ | ⟨-, hu⟩ | ⟨w, l, hp, -⟩⟩ := step_cases h
  · exact ⟨_, _, eq_of_unitTurn_idle hb hu, .inl rfl⟩
  · exact ⟨_, _, rfl, .inl rfl⟩
  · have hne : addr ≠ cmdAddr := by
      rintro rfl
      exact hc ⟨data, ts, hp⟩
    exact ⟨_, _, rfl, .inr ⟨addr, data, hne, rfl⟩⟩
  · exact ⟨_, _, eq_of_unitTurn_idle (s := s.withTurns ts) hb hu, .inl rfl⟩
  · exact absurd ⟨w, l, ts, hp⟩ hr

/-- Settles O52: by R30 a block with `DONE` set is idle, and a write to another address than `CMD` keeps the fields. -/
theorem resultsStayUntilNextCommand : Obligations.ResultsStayUntilNextCommand := by
  intro s t hs hdone h hr hc
  have hb : s.block.busy = false := by
    by_contra hbusy
    rw [Bool.not_eq_false] at hbusy
    rw [(hs.1 hbusy).1] at hdone
    cases hdone
  obtain ⟨b, p, rfl, rfl | ⟨addr, data, hne, rfl⟩⟩ := step_idle_block hb h hr hc
  · exact ⟨rfl, rfl, hdone, rfl, rfl, rfl⟩
  · obtain ⟨hres0, hres1, -, hdone', herr, hecode, hop⟩ := s.block.afterWrite_of_ne_cmd hne data
    exact ⟨congrArg _ hres0, congrArg _ hres1, hdone'.trans hdone, herr, hecode, hop⟩

end Sys2Proof.Machine
end

