-- ==== Sys2Proof/Proofs/ModExp.lean ====
section
/-! SUPPORT. The command `MODEXP`: the power it computes (R110, R111), the range of its result (R116), and the properties of
modular exponentiation itself (R115, R117). -/

namespace Sys2Proof.Machine

open Sys2Proof

/-! ## The function (R111, R115 to R117) -/

/-- The exponent 0 gives 1, for the modulus 1 too (R114). -/
theorem refModExp_zero (b m : Int) : refModExp b 0 m = 1 := rfl

/-- A positive exponent gives the residue of the exact power (R111). -/
theorem refModExp_of_pos {e : Int} (he : 1 ≤ e) (b m : Int) : refModExp b e m = b ^ e.toNat % m :=
  if_neg (by omega)

/-- For a positive exponent the result is a residue (R116). -/
theorem refModExp_mem_residues {e m : Int} (he : 1 ≤ e) (hm : 1 ≤ m) (b : Int) :
    0 ≤ refModExp b e m ∧ refModExp b e m < m := by
  rw [refModExp_of_pos he]
  exact ⟨Int.emod_nonneg _ (by omega), Int.emod_lt_of_pos _ (by omega)⟩

/-- The range of the result (R116). -/
theorem refModExp_range {e m : Int} (he : 0 ≤ e) (hm : 1 ≤ m) (b : Int) :
    0 ≤ refModExp b e m ∧ refModExp b e m ≤ max 1 (m - 1) := by
  obtain rfl | hpos := he.eq_or_lt
  · rw [refModExp_zero]
    omega
  · have hresidue := refModExp_mem_residues hpos hm b
    omega

/-- Settles O27: both values are the definition's, a positive power of 0 being 0. -/
theorem modexpBoundaryProperties : Obligations.ModexpBoundaryProperties := by
  refine ⟨fun x n _ => modExp_eq_refModExp le_rfl, fun k n hk _ => ?_⟩
  rw [modExp_eq_refModExp hk.le, refModExp_of_pos hk, zero_pow (by omega), Int.zero_emod]

/-- Settles O28: a base and its residue are congruent. -/
theorem modexpBaseByResidue : Obligations.ModexpBaseByResidue :=
  fun b _ m _ _ => modExp_congr (Int.mod_modEq b m).symm

/-! ## The command (R110, R116) -/

/-- `exec` of the computing command that runs completes it (R96). -/
theorem exec_running {s : State} {i : Instr} (hs : s.running i) (hi : i.computing = true) :
    exec i s = .next (s.withBlock (s.block.complete (s.block.outcome i))) := by
  obtain ⟨hb, hop⟩ := hs
  rw [exec_computing hi, Block.runCommand_running _ hb hop]

/-- Outside its domain `MODEXP` gives `InvalidDomain` (R112). -/
theorem Block.outcome_modexp_invalid {W : Nat} {b : Block W} (h : b.operand .e < 0 ∨ b.operand .n < 1) :
    b.outcome .modexp = .invalidDomain :=
  if_pos h

/-- In its domain `MODEXP` gives the power by its definition, and 0 (R110, R111). -/
theorem Block.outcome_modexp {W : Nat} {b : Block W} (he : 0 ≤ b.operand .e) (hn : 1 ≤ b.operand .n) :
    b.outcome .modexp = .results (refModExp (b.operand .a) (b.operand .e) (b.operand .n)) 0 := by
  rw [← modExp_eq_refModExp he]
  exact if_neg (by omega)

/-- Settles O25: completion with the function's outcome, outside the domain and in it. -/
theorem modexpComputesPower : Obligations.ModexpComputesPower := by
  intro s hs
  rw [exec_running hs rfl]
  split
  case isTrue hbad =>
    rw [Block.outcome_modexp_invalid hbad]
    rfl
  case isFalse hgood =>
    rw [Block.outcome_modexp (by omega) (by omega), Block.complete, enc_zero, refModExp]

/-- A word with a signed value not negative has the top bit zero (R9). -/
theorem getMsbD_zero_of_sval_nonneg {W : Nat} (hW : 1 ≤ W) {b : Word W} (h : 0 ≤ sval b) : b.getMsbD 0 = false := by
  rw [sval_eq_toInt hW] at h
  exact BitVec.msb_eq_toInt.trans (decide_eq_false h.not_gt)

/-- A value that is not negative and at most 1, or below a register's signed value, fits a register (R116). -/
theorem fits_of_le_max {W : Nat} (hW : 2 ≤ W) {v : Int} (m : Word W) (h0 : 0 ≤ v) (h1 : v ≤ max 1 (sval m - 1)) :
    fits W v := by
  have hone : (1 : Int) < 2 ^ (W - 1) := one_lt_pow₀ (by decide) (by omega)
  have hm : fits W (sval m) := fits_sval (by omega) m
  omega

/-- Settles O26: the result is in its range, which fits the register, so the register's signed value is the result. -/
theorem modexpResultRange : Obligations.ModexpResultRange := by
  intro s hs he hn
  have hW := s.cfg.W_ge
  have hexec := exec_running hs rfl
  rw [Block.outcome_modexp he hn] at hexec
  obtain ⟨hnonneg, hle⟩ := refModExp_range he hn (s.block.operand .a)
  have hval := sval_enc_of_fits (by omega) (fits_of_le_max (by omega) s.block.n hnonneg hle)
  refine ⟨_, hexec, ?_⟩
  rw [Block.complete_results_res0, Block.complete_results_res1, hval]
  refine ⟨hnonneg, hle, getMsbD_zero_of_sval_nonneg (by omega) (hnonneg.trans_eq hval.symm), enc_zero _,
    fun hzero => ?_, fun hpos => (refModExp_mem_residues hpos hn _).2, fun hpos hone => ?_⟩
  · rw [hzero, refModExp_zero]
  · have hlt := (refModExp_mem_residues hpos hn (s.block.operand .a)).2
    omega

end Sys2Proof.Machine
end

