-- ==== Sys2Proof/Proofs/Jacobi.lean ====
section
/-! SUPPORT. The Jacobi symbol: the laws behind the cases of its definition (R131, R133, R134), its dependence on `a` modulo
`n` (R137), and the command `JACOBI` (R130). -/

namespace Sys2Proof.Machine

open Sys2Proof

/-! ## The laws of the symbol (R131, R137) -/

/-- The symbol depends on `a` modulo `n` only (R137). -/
theorem jacobi_emod {n : Int} (hn : 1 ≤ n) (hodd : n % 2 = 1) (a : Int) : jacobi a n = jacobi (a % n) n := by
  rw [jacobi_eq_jacobiSym hn hodd, jacobi_eq_jacobiSym hn hodd, jacobiSym.mod_left, Int.toNat_of_nonneg (by omega)]

/-- The symbol at 2 is the lookup (R133). -/
theorem jacobi_two {n : Int} (hn : 1 ≤ n) (hodd : n % 2 = 1) : jacobi 2 n = jacobiTwo n := by
  rw [jacobi_eq_jacobiSym hn hodd, ← jacobiTwo_eq (by omega), Int.toNat_of_nonneg (by omega)]

/-- A factor 2 of `a` gives the lookup (R131, R133). -/
theorem jacobi_two_mul {n : Int} (hn : 1 ≤ n) (hodd : n % 2 = 1) (a : Int) :
    jacobi (2 * a) n = jacobiTwo n * jacobi a n := by
  rw [← jacobi_two hn hodd, jacobi_eq_jacobiSym hn hodd, jacobi_eq_jacobiSym hn hodd, jacobi_eq_jacobiSym hn hodd,
    jacobiSym.mul_left]

/-- The sign of `a` gives the sign of the modulus (R134). -/
theorem jacobi_eq_sgn_mul_neg {n : Int} (hn : 1 ≤ n) (hodd : n % 2 = 1) (a : Int) :
    jacobi a n = jacobiSgn n * jacobi (-a) n := by
  have hsgn := jacobiSgn_eq (n := n.toNat) (by omega) (-a)
  rw [Int.toNat_of_nonneg (by omega), neg_neg] at hsgn
  rw [jacobi_eq_jacobiSym hn hodd, jacobi_eq_jacobiSym hn hodd, hsgn]

/-- Quadratic reciprocity, for odd positive `a` and `n` (R131). -/
theorem jacobi_eq_flip_mul_swap {a n : Int} (ha : 1 ≤ a) (haodd : a % 2 = 1) (hn : 1 ≤ n) (hodd : n % 2 = 1) :
    jacobi a n = jacobiFlip a n * jacobi n a := by
  have hflip := jacobiFlip_eq (a := a.toNat) (n := n.toNat) (by omega) (by omega)
  rw [Int.toNat_of_nonneg (by omega), Int.toNat_of_nonneg (by omega)] at hflip
  rw [jacobi_eq_jacobiSym hn hodd, jacobi_eq_jacobiSym ha haodd, hflip]

/-- Settles O31: the engine's value is the library's symbol, which depends on the residue of `a`. -/
theorem jacobiIsTheNumberTheoreticSymbol : Obligations.JacobiIsTheNumberTheoreticSymbol :=
  fun a _ hn hodd => ⟨jacobi_eq_jacobiSym hn hodd, jacobi_emod hn hodd a⟩

/-- Settles O30: the base cases are values of the library's symbol, each of the others is a law of the symbol. -/
theorem jacobiCases : Obligations.JacobiCases := by
  intro a n hn hodd
  refine ⟨?_, ?_, ?_, ?_, fun _ _ => jacobi_eq_sgn_mul_neg hn hodd a, fun _ _ heven => ?_,
    fun _ _ _ _ => jacobi_emod hn hodd a,
    fun _ ha haodd _ => jacobi_eq_flip_mul_swap (by omega) haodd hn hodd⟩
  · rintro rfl
    rw [jacobi_eq_jacobiSym hn hodd, Int.toNat_one, jacobiSym.one_right]
  · rintro hn1 rfl
    rw [jacobi_eq_jacobiSym hn hodd, jacobiSym.zero_left (by omega)]
  · rintro - rfl
    rw [jacobi_eq_jacobiSym hn hodd, jacobiSym.one_left]
  · rintro - rfl
    exact jacobi_two hn hodd
  · obtain ⟨k, rfl⟩ := Int.dvd_of_emod_eq_zero heven
    rw [Int.mul_ediv_cancel_left k (by decide)]
    exact jacobi_two_mul hn hodd k

/-! ## The command (R130, R132) -/

/-- Outside its domain `JACOBI` gives `InvalidDomain` (R132). -/
theorem Block.outcome_jacobi_invalid {W : Nat} {b : Block W} (h : b.operand .n < 1 ∨ b.operand .n % 2 = 0) :
    b.outcome .jacobi = .invalidDomain :=
  if_pos h

/-- The symbol is -1, 0 or 1 (R136). -/
theorem jacobi_mem_symbols {n : Int} (hn : 1 ≤ n) (hodd : n % 2 = 1) (a : Int) : jacobi a n ∈ [-1, 0, 1] := by
  have hsymbol := jacobiSym.trichotomy a n.toNat
  rw [← jacobi_eq_jacobiSym hn hodd] at hsymbol
  simp only [List.mem_cons, List.not_mem_nil, or_false]
  omega

/-- Settles O29: completion with the function's outcome, outside the domain and in it. -/
theorem jacobiWritesSymbol : Obligations.JacobiWritesSymbol := by
  intro s hs
  refine ⟨?_, fun hn hodd => jacobi_mem_symbols hn hodd _, enc_neg_one s.cfg.W⟩
  rw [exec_running hs rfl]
  split
  case isTrue hbad =>
    rw [Block.outcome_jacobi_invalid hbad]
    rfl
  case isFalse hgood =>
    rw [Block.outcome_jacobi (by omega) (by omega), Block.complete, enc_zero]

end Sys2Proof.Machine
end

