-- ==== Sys2Proof/Proofs/Lucas.lean ====
section
/-! SUPPORT. The command `LUCAS`: its digit steps modulo `n` (R151 to R156), the Lucas sequences of the recurrence (R157), and
the command's results (R150, R158). -/

namespace Sys2Proof.Machine

open Sys2Proof

/-! ## The halving (R154) -/

theorem lucasHalve_of_even {t : Int} (h : t % 2 = 0) (n : Int) : lucasHalve n t = t / 2 % n := by
  rw [lucasHalve, if_neg (by omega)]

theorem lucasHalve_of_odd {t : Int} (h : t % 2 = 1) (n : Int) : lucasHalve n t = (t + n) / 2 % n := by
  rw [lucasHalve, if_pos h]

/-- The factor 2 cancels modulo an odd `n`. -/
theorem modEq_of_two_mul_modEq {n a b : Int} (hodd : n % 2 = 1) (h : 2 * a ≡ 2 * b [ZMOD n]) : a ≡ b [ZMOD n] := by
  obtain ⟨c, hc⟩ := h.dvd
  have hcop : IsCoprime n 2 := Int.isCoprime_two_right.2 (Int.odd_iff.2 hodd)
  exact Int.modEq_iff_dvd.2 (hcop.dvd_of_dvd_mul_left ⟨c, by linarith⟩)

/-- The halving's result is reduced (R154). -/
theorem lucasHalve_emod (n t : Int) : lucasHalve n t % n = lucasHalve n t := Int.emod_emod _ _

/-- The halving gives the residue of whatever doubles to `t` (R154). -/
theorem lucasHalve_eq_emod {n t x : Int} (hodd : n % 2 = 1) (h : 2 * x ≡ t [ZMOD n]) : lucasHalve n t = x % n :=
  (lucasHalve_emod n t).symm.trans (modEq_of_two_mul_modEq hodd ((lucasHalve_modEq hodd t).trans h.symm))

/-- The halving depends on the residue of its argument only, though the correction depends on its parity (R156). -/
theorem lucasHalve_congr {n t t' : Int} (hodd : n % 2 = 1) (h : t ≡ t' [ZMOD n]) : lucasHalve n t = lucasHalve n t' := by
  rw [← lucasHalve_emod n t']
  exact lucasHalve_eq_emod hodd ((lucasHalve_modEq hodd t').trans h.symm)

/-! ## One digit (R151, R153 to R156) -/

/-- A 0 digit is one doubling. -/
@[simp] theorem lucasDigit_zero (n p q d : Int) (x : LucasPair) : lucasDigit n p q d 0 x = lucasDouble n q x := rfl

/-- A 1 digit is one doubling and then one step update. -/
@[simp] theorem lucasDigit_one (n p q d : Int) (x : LucasPair) :
    lucasDigit n p q d 1 x = lucasStep n p d (lucasDouble n q x) := rfl

theorem lucasAdv_two_mul {k : Int} (hk : 1 ≤ k) (n u v p q d : Int) :
    lucasAdv (2 * k) n u v p q d = lucasDouble n q (lucasAdv k n u v p q d) := by
  have h := lucasAdv_double 0 hk (by decide) n u v p q d
  rwa [Nat.cast_zero, add_zero] at h

theorem lucasAdv_two_mul_add_one {k : Int} (hk : 1 ≤ k) (n u v p q d : Int) :
    lucasAdv (2 * k + 1) n u v p q d = lucasStep n p d (lucasAdv (2 * k) n u v p q d) := by
  rw [lucasAdv_two_mul hk]
  exact lucasAdv_double 1 hk (by decide) n u v p q d

/-- A doubling at a positive subscript, with the exact power of `q` (R153). -/
theorem lucasDouble_eq {k : Int} (hk : 1 ≤ k) (n q u v : Int) :
    lucasDouble n q ⟨u % n, v % n, k⟩ = ⟨u * v % n, (v * v - 2 * q ^ k.toNat) % n, 2 * k⟩ := by
  have hV : v % n * (v % n) - 2 * modExp q k n ≡ v * v - 2 * q ^ k.toNat [ZMOD n] := by
    rw [modExp_eq_refModExp (by omega), refModExp_of_pos hk]
    exact ((Int.mod_modEq v n).mul (Int.mod_modEq v n)).sub ((Int.mod_modEq _ n).mul_left 2)
  rw [lucasDouble, ← Int.mul_emod, hV]

/-- A step update depends on residues only (R156). -/
theorem lucasStep_congr {n p p' d d' u u' v v' : Int} (hodd : n % 2 = 1) (hp : p ≡ p' [ZMOD n]) (hd : d ≡ d' [ZMOD n])
    (hu : u ≡ u' [ZMOD n]) (hv : v ≡ v' [ZMOD n]) (k : Int) :
    lucasStep n p d ⟨u, v, k⟩ = lucasStep n p' d' ⟨u', v', k⟩ := by
  rw [lucasStep, lucasHalve_congr hodd ((hp.mul hu).add hv), lucasHalve_congr hodd ((hd.mul hu).add (hp.mul hv))]
  rfl

/-- The work on one digit depends on `p`, `q`, `d` through their residues only (R156). -/
theorem lucasDigit_congr {n p p' q q' d d' : Int} (hodd : n % 2 = 1) (hp : p ≡ p' [ZMOD n]) (hq : q ≡ q' [ZMOD n])
    (hd : d ≡ d' [ZMOD n]) (b : Nat) (x : LucasPair) : lucasDigit n p q d b x = lucasDigit n p' q' d' b x := by
  have hdouble : lucasDouble n q x = lucasDouble n q' x := by rw [lucasDouble, modExp_congr hq, lucasDouble]
  rw [lucasDigit, lucasDigit, hdouble, lucasStep_congr hodd hp hd rfl rfl]

/-- The pair of `LucasAdv` depends on residues only (R156). -/
theorem lucasAdv_congr {k n u u' v v' p p' q q' d d' : Int} (hk : 1 ≤ k) (hodd : n % 2 = 1) (hu : u ≡ u' [ZMOD n])
    (hv : v ≡ v' [ZMOD n]) (hp : p ≡ p' [ZMOD n]) (hq : q ≡ q' [ZMOD n]) (hd : d ≡ d' [ZMOD n]) :
    lucasAdv k n u v p q d = lucasAdv k n u' v' p' q' d' := by
  induction k, hk using lucas_induction with
  | one => rw [lucasAdv_one, lucasAdv_one, hu, hv]
  | double k b hk hb ih => rw [lucasAdv_double b hk hb, lucasAdv_double b hk hb, ih, lucasDigit_congr hodd hp hq hd]

/-- Settles O36: an operand and its residue are congruent. -/
theorem lucasByResidues : Obligations.LucasByResidues :=
  fun _ n u v p q d hk _ hodd =>
    lucasAdv_congr hk hodd (Int.mod_modEq u n).symm (Int.mod_modEq v n).symm (Int.mod_modEq p n).symm
      (Int.mod_modEq q n).symm (Int.mod_modEq d n).symm

/-- Settles O34: a digit 0 after `k` is a doubling at subscript `k`, a digit 1 that and a step update. -/
theorem lucasDigitByDigit : Obligations.LucasDigitByDigit := by
  intro k n u v p q d hk _ _
  refine ⟨lucasAdv_one n u v p q d, ?_⟩
  intro x y tU tV
  have hsub : x.sub = k := lucasAdv_sub hk n u v p q d
  have hdouble : lucasAdv (2 * k) n u v p q d = y := by
    rw [lucasAdv_two_mul hk, lucasDouble, lucasAdv_sub hk, modExp_eq_refModExp (by omega)]
  have hstep : lucasAdv (2 * k + 1) n u v p q d = lucasStep n p d y := by
    rw [lucasAdv_two_mul_add_one hk, hdouble]
  rw [hstep]
  exact ⟨hsub, hdouble, rfl, fun h => lucasHalve_of_even h n, fun h => lucasHalve_of_odd h n,
    fun h => lucasHalve_of_even h n, fun h => lucasHalve_of_odd h n⟩

/-! ## One doubling from the start, and the corner cases (R161, R163) -/

/-- For `k = 2` the start is doubled once. -/
theorem lucasAdv_two (n u v p q d : Int) :
    lucasAdv 2 n u v p q d = { U := u * v % n, V := (v * v - 2 * q) % n, sub := 2 } := by
  have hdouble := lucasAdv_two_mul le_rfl n u v p q d
  rw [lucasAdv_one, lucasDouble_eq le_rfl, Int.toNat_one, pow_one] at hdouble
  exact hdouble

/-- Settles O38: the doubling uses `Q` as the power at subscript 1, and here it holds the power at subscript `j`. -/
theorem lucasSingleDoubling : Obligations.LucasSingleDoubling := by
  intro n u v p Q j d _ _ hj
  have hpow : modExp Q j n ≡ Q ^ j.toNat [ZMOD n] := by
    rw [modExp_eq_refModExp (by omega), refModExp_of_pos hj]
    exact Int.mod_modEq _ n
  rw [lucasAdv_two]
  exact ⟨rfl, (hpow.mul_left 2).sub_left (v * v)⟩

/-- The pair of `LucasAdv` is a pair of residues (R158). -/
theorem lucasAdv_range {k n : Int} (hk : 1 ≤ k) (hn : 1 ≤ n) (u v p q d : Int) :
    0 ≤ (lucasAdv k n u v p q d).U ∧ (lucasAdv k n u v p q d).U < n
      ∧ 0 ≤ (lucasAdv k n u v p q d).V ∧ (lucasAdv k n u v p q d).V < n := by
  cases k, hk using lucas_induction with
  | one =>
    rw [lucasAdv_one]
    exact ⟨Int.emod_nonneg _ (by omega), Int.emod_lt_of_pos _ (by omega), Int.emod_nonneg _ (by omega),
      Int.emod_lt_of_pos _ (by omega)⟩
  | double k b hk hb =>
    rw [lucasAdv_double b hk hb]
    exact lucasDigit_range hn b _

/-- Modulo 1 both values are 0 (R161). -/
theorem lucasAdv_modulus_one {k : Int} (hk : 1 ≤ k) (u v p q d : Int) :
    lucasAdv k 1 u v p q d = { U := 0, V := 0, sub := k } := by
  have hsub := lucasAdv_sub hk 1 u v p q d
  obtain ⟨hU0, hU1, hV0, hV1⟩ := lucasAdv_range hk le_rfl u v p q d
  rw [LucasPair.mk.injEq]
  omega

/-- Doublings keep `U = 0`: the digits of a power of two below the top are all 0 (R161). -/
theorem lucasAdv_two_pow_U_of_zero (i : Nat) (n v p q d : Int) : (lucasAdv (2 ^ i) n 0 v p q d).U = 0 := by
  induction i with
  | zero => rw [pow_zero, lucasAdv_one, Int.zero_emod]
  | succ i ih =>
    rw [pow_succ', lucasAdv_two_mul (one_le_pow₀ (by decide)), lucasDouble, ih, zero_mul, Int.zero_emod]

/-- With `Q = 0` a doubling squares `V` (R161). -/
theorem lucasAdv_two_mul_V_of_q_zero {k : Int} (hk : 1 ≤ k) {n : Int} (hn : 1 ≤ n) (u v p d : Int) :
    (lucasAdv (2 * k) n u v p 0 d).V = (lucasAdv k n u v p 0 d).V * (lucasAdv k n u v p 0 d).V % n := by
  have hpow : modExp 0 k n = 0 := modexpBoundaryProperties.2 k n hk hn
  rw [lucasAdv_two_mul hk, lucasDouble, lucasAdv_sub hk, hpow, mul_zero, sub_zero]

/-- Settles O57: each row by its lemma; for `k = 3` the step update halves `p * 0 + V`. -/
theorem lucasCornerCases : Obligations.LucasCornerCases := by
  intro n u v p q d hn _
  have hU2 : (lucasAdv 2 n 0 0 p q d).U = 0 := lucasAdv_two_pow_U_of_zero 1 n 0 p q d
  have hstep : lucasAdv 3 n 0 0 p q d = lucasStep n p d (lucasAdv 2 n 0 0 p q d) :=
    lucasAdv_two_mul_add_one le_rfl n 0 0 p q d
  refine ⟨lucasAdv_one n u v p q d, lucasAdv_two n u v p q d, lucasAdv_sub (by decide) n u v p q d,
    fun k hk => lucasAdv_modulus_one hk u v p q d, fun i => lucasAdv_two_pow_U_of_zero i n 0 p q d, ?_,
    fun k hk => lucasAdv_two_mul_V_of_q_zero hk hn u v p d, ?_⟩
  · rw [lucasAdv_two, mul_zero, zero_sub, neg_mul]
  · rw [hstep, lucasStep, hU2, mul_zero, zero_add, lucasHalve]

/-! ## The Lucas sequences of the recurrence (R157) -/

theorem lucasU_add_two (P Q : Int) (j : Nat) :
    lucasU P Q (j + 2) = P * lucasU P Q (j + 1) - Q * lucasU P Q j := by
  rw [lucasU]

theorem lucasV_add_two (P Q : Int) (j : Nat) :
    lucasV P Q (j + 2) = P * lucasV P Q (j + 1) - Q * lucasV P Q j := by
  rw [lucasV]

/-- The next `U` from the pair before it. -/
theorem two_mul_lucasU_succ (P Q : Int) (j : Nat) :
    2 * lucasU P Q (j + 1) = P * lucasU P Q j + lucasV P Q j := by
  induction j using Nat.twoStepInduction with
  | zero => simp [lucasU, lucasV]
  | one => simp only [lucasU, lucasV]; ring
  | more j h0 h1 =>
    linear_combination 2 * lucasU_add_two P Q (j + 1) - P * lucasU_add_two P Q j - lucasV_add_two P Q j
      + P * h1 - Q * h0

/-- The next `V` from the pair before it. -/
theorem two_mul_lucasV_succ (P Q : Int) (j : Nat) :
    2 * lucasV P Q (j + 1) = (P * P - 4 * Q) * lucasU P Q j + P * lucasV P Q j := by
  linear_combination P * two_mul_lucasU_succ P Q j - 2 * two_mul_lucasU_succ P Q (j + 1)
    + 4 * lucasU_add_two P Q j

/-- The addition formula of `U`: both sides follow the recurrence in `j`. -/
theorem two_mul_lucasU_add (P Q : Int) (m j : Nat) :
    2 * lucasU P Q (m + j) = lucasU P Q m * lucasV P Q j + lucasV P Q m * lucasU P Q j := by
  induction j using Nat.twoStepInduction with
  | zero => simp [lucasU, lucasV, mul_comm]
  | one => simp only [two_mul_lucasU_succ, lucasU, lucasV]; ring
  | more j h0 h1 =>
    linear_combination 2 * lucasU_add_two P Q (m + j) - lucasU P Q m * lucasV_add_two P Q j
      - lucasV P Q m * lucasU_add_two P Q j + P * h1 - Q * h0

/-- The addition formula of `V`, likewise. -/
theorem two_mul_lucasV_add (P Q : Int) (m j : Nat) :
    2 * lucasV P Q (m + j)
      = lucasV P Q m * lucasV P Q j + (P * P - 4 * Q) * (lucasU P Q m * lucasU P Q j) := by
  induction j using Nat.twoStepInduction with
  | zero => simp [lucasU, lucasV, mul_comm]
  | one => simp only [two_mul_lucasV_succ, lucasU, lucasV]; ring
  | more j h0 h1 =>
    linear_combination 2 * lucasV_add_two P Q (m + j) - lucasV P Q m * lucasV_add_two P Q j
      - (P * P - 4 * Q) * lucasU P Q m * lucasU_add_two P Q j + P * h1 - Q * h0

/-- The norm of the pair is a power of `Q`: a step multiplies four times the norm by `4 * Q`. -/
theorem lucas_norm (P Q : Int) (j : Nat) :
    lucasV P Q j ^ 2 - (P * P - 4 * Q) * lucasU P Q j ^ 2 = 4 * Q ^ j := by
  induction j with
  | zero => simp [lucasU, lucasV]
  | succ j ih =>
    have hU := congrArg (· ^ 2) (two_mul_lucasU_succ P Q j)
    have hV := congrArg (· ^ 2) (two_mul_lucasV_succ P Q j)
    refine mul_left_cancel₀ (by decide : (4 : Int) ≠ 0) ?_
    linear_combination 4 * Q * ih + hV - (P * P - 4 * Q) * hU

/-- The doubling of `U` (R153). -/
theorem lucasU_two_mul (P Q : Int) (j : Nat) : lucasU P Q (2 * j) = lucasU P Q j * lucasV P Q j := by
  refine mul_left_cancel₀ (by decide : (2 : Int) ≠ 0) ?_
  rw [two_mul j, two_mul_lucasU_add]
  ring

/-- The doubling of `V`, where the norm gives the power of `Q` (R153). -/
theorem lucasV_two_mul (P Q : Int) (j : Nat) :
    lucasV P Q (2 * j) = lucasV P Q j * lucasV P Q j - 2 * Q ^ j := by
  refine mul_left_cancel₀ (by decide : (2 : Int) ≠ 0) ?_
  rw [two_mul j, two_mul_lucasV_add]
  linear_combination -lucas_norm P Q j

/-- The terms of subscript `k` modulo `n`, as the unit's pair. -/
def lucasTerms (n P Q k : Int) : LucasPair where
  U := lucasU P Q k.toNat % n
  V := lucasV P Q k.toNat % n
  sub := k

/-- A doubling takes the terms of subscript `k` to those of `2 * k` (R153). -/
theorem lucasDouble_lucasTerms {k : Int} (hk : 1 ≤ k) (n P Q : Int) :
    lucasDouble n Q (lucasTerms n P Q k) = lucasTerms n P Q (2 * k) := by
  have htoNat : (2 * k).toNat = 2 * k.toNat := by omega
  rw [lucasTerms, lucasDouble_eq hk, lucasTerms, htoNat, lucasU_two_mul, lucasV_two_mul]

/-- A step update takes the terms of subscript `k` to those of `k + 1` (R154). -/
theorem lucasStep_lucasTerms {n P Q d k : Int} (hk : 1 ≤ k) (hodd : n % 2 = 1) (hd : d ≡ P * P - 4 * Q [ZMOD n]) :
    lucasStep n P d (lucasTerms n P Q k) = lucasTerms n P Q (k + 1) := by
  have htoNat : (k + 1).toNat = k.toNat + 1 := by omega
  rw [lucasTerms, lucasStep_congr hodd rfl hd (Int.mod_modEq _ n) (Int.mod_modEq _ n), lucasStep,
    ← two_mul_lucasU_succ, ← two_mul_lucasV_succ, lucasHalve_eq_emod hodd rfl, lucasHalve_eq_emod hodd rfl,
    lucasTerms, htoNat]

/-- Started on the terms of subscript 1, `LucasAdv` ends on those of subscript `k` (R157). -/
theorem lucasAdv_eq_lucasTerms {k n u v P Q d : Int} (hk : 1 ≤ k) (hodd : n % 2 = 1) (hu : u ≡ 1 [ZMOD n])
    (hv : v ≡ P [ZMOD n]) (hd : d ≡ P * P - 4 * Q [ZMOD n]) :
    lucasAdv k n u v P Q d = lucasTerms n P Q k := by
  induction k, hk using lucas_induction with
  | one => rw [lucasAdv_one, hu, hv]; rfl
  | double k b hk hb ih =>
    rw [lucasAdv_double b hk hb, ih]
    interval_cases b
    · rw [lucasDigit_zero, lucasDouble_lucasTerms hk, Nat.cast_zero, add_zero]
    · rw [lucasDigit_one, lucasDouble_lucasTerms hk, lucasStep_lucasTerms (by omega) hodd hd, Nat.cast_one]

/-! ## The command (R150, R152, R157, R158) -/

/-- The pair of `LucasAdv` on the operand registers (R72). -/
def Block.lucasPair {W : Nat} (b : Block W) : LucasPair :=
  lucasAdv (b.operand .e) (b.operand .n) (b.operand .u0) (b.operand .v0) (b.operand .p) (b.operand .q) (b.operand .d)

/-- Outside its domain `LUCAS` gives `InvalidDomain` (R152). -/
theorem Block.outcome_lucas_invalid {W : Nat} {b : Block W}
    (h : b.operand .e < 1 ∨ b.operand .n < 1 ∨ b.operand .n % 2 = 0) : b.outcome .lucas = .invalidDomain :=
  if_pos h

/-- In its domain `LUCAS` gives the pair (R150). -/
theorem Block.outcome_lucas {W : Nat} {b : Block W} (he : 1 ≤ b.operand .e) (hn : 1 ≤ b.operand .n)
    (hodd : b.operand .n % 2 = 1) : b.outcome .lucas = .results b.lucasPair.U b.lucasPair.V :=
  if_neg (by omega)

/-- Settles O33: completion with the function's outcome, outside the domain and in it. -/
theorem lucasWritesPair : Obligations.LucasWritesPair := by
  intro s hs
  rw [exec_running hs rfl]
  split
  case isTrue hbad =>
    rw [Block.outcome_lucas_invalid hbad]
    rfl
  case isFalse hgood =>
    rw [Block.outcome_lucas (by omega) (by omega) (by omega)]
    rfl

/-- A residue modulo a register's value fits a register. -/
theorem fits_of_lt_sval {W : Nat} (hW : 2 ≤ W) {v : Int} (m : Word W) (h0 : 0 ≤ v) (h1 : v < sval m) : fits W v :=
  fits_of_le_max hW m h0 (le_max_of_le_right (Int.le_sub_one_of_lt h1))

/-- Settles O37: both results are residues modulo the modulus, which fit a register. -/
theorem lucasResultRange : Obligations.LucasResultRange := by
  intro s hs he hn hodd
  have hW2 : 2 ≤ s.cfg.W := le_trans (by decide) s.cfg.W_ge
  have hW : 1 ≤ s.cfg.W := le_trans (by decide) s.cfg.W_ge
  have hexec := exec_running hs rfl
  rw [Block.outcome_lucas he hn hodd] at hexec
  obtain ⟨hU0, hU1, hV0, hV1⟩ : 0 ≤ s.block.lucasPair.U ∧ s.block.lucasPair.U < s.block.operand .n
      ∧ 0 ≤ s.block.lucasPair.V ∧ s.block.lucasPair.V < s.block.operand .n := lucasAdv_range he hn ..
  have hU := sval_enc_of_fits hW (fits_of_lt_sval hW2 s.block.n hU0 hU1)
  have hV := sval_enc_of_fits hW (fits_of_lt_sval hW2 s.block.n hV0 hV1)
  refine ⟨_, hexec, ?_⟩
  rw [Block.complete_results_res0, Block.complete_results_res1, hU, hV]
  exact ⟨hU0, hU1, hV0, hV1, getMsbD_zero_of_sval_nonneg hW (hU0.trans_eq hU.symm),
    getMsbD_zero_of_sval_nonneg hW (hV0.trans_eq hV.symm)⟩

/-- Settles O35: the congruences of the operands start the unit on the terms of subscript 1. -/
theorem lucasComputesSequenceTerms : Obligations.LucasComputesSequenceTerms := by
  intro s hs he hn hodd hu hv hd
  have hpair : s.block.lucasPair = lucasTerms (s.block.operand .n) (s.block.operand .p) (s.block.operand .q)
      (s.block.operand .e) :=
    lucasAdv_eq_lucasTerms he hodd (Int.emod_eq_emod_iff_emod_sub_eq_zero.2 hu)
      (Int.emod_eq_emod_iff_emod_sub_eq_zero.2 hv) (Int.emod_eq_emod_iff_emod_sub_eq_zero.2 hd)
  rw [exec_running hs rfl, Block.outcome_lucas he hn hodd, hpair]
  rfl

end Sys2Proof.Machine
end

