-- ==== Sys2Proof/Proofs/MrTest.lean ====
section
/-! SUPPORT. The command `MRTEST`: the table of stage 1 and what it leaves undecided (R171, R173), the test of stage 2 on a
prime (R174, R179), the square test (R176, R177), and the verdicts (R170, R178, R179). -/

namespace Sys2Proof.Machine

open Sys2Proof

/-! ## Stage 1: the table of primes (R171, R173) -/

/-- An entry is at least 2, at most 499, and has no smaller divisor up to 22, the square root of 499 rounded down. -/
theorem smallPrimes_trial : ∀ p ∈ smallPrimes,
    2 ≤ p ∧ p ≤ 499 ∧ ∀ m : Nat, m < 23 → 2 ≤ m → (m : Int) < p → ¬ (m : Int) ∣ p := by decide

/-- A number from 2 to 499 has a smaller divisor among the primes up to 19, or is an entry. It is split as `20 * q + r` to
keep the enumeration shallow. -/
theorem exists_divisor_or_mem_smallPrimes : ∀ q < 25, ∀ r < 20, 2 ≤ 20 * q + r →
    (∃ m ∈ [2, 3, 5, 7, 11, 13, 17, 19], m < 20 * q + r ∧ m ∣ 20 * q + r)
    ∨ ((20 * q + r : Nat) : Int) ∈ smallPrimes := by decide

/-- The entries are prime: a divisor up to the square root would be one of those tried. -/
theorem prime_of_mem_smallPrimes {n : Nat} (h : (n : Int) ∈ smallPrimes) : n.Prime := by
  obtain ⟨h2, h499, htrial⟩ := smallPrimes_trial n h
  have hsqrt : n.sqrt < 23 := Nat.sqrt_lt.2 (by omega)
  refine Nat.prime_def_le_sqrt.2 ⟨by omega, fun m hm hle hdvd => ?_⟩
  have hlt : m < n := hle.trans_lt (Nat.sqrt_lt_self (by omega))
  exact htrial m (hle.trans_lt hsqrt) hm (by omega) (Int.natCast_dvd_natCast.2 hdvd)

/-- Every prime up to 499 is an entry. -/
theorem mem_smallPrimes_of_prime {n : Nat} (hp : n.Prime) (hn : n ≤ 499) : (n : Int) ∈ smallPrimes := by
  have h := exists_divisor_or_mem_smallPrimes (n / 20) (by omega) (n % 20) (by omega)
  rw [Nat.div_add_mod] at h
  refine (h hp.two_le).resolve_left ?_
  rintro ⟨m, hm, hlt, hdvd⟩
  obtain rfl | rfl := (Nat.dvd_prime hp).1 hdvd
  · exact absurd hm (by decide)
  · exact lt_irrefl _ hlt

/-- Settles O39: each direction is trial division up to the square root of 499. -/
theorem smallPrimeTable : Obligations.SmallPrimeTable := by
  refine ⟨by decide, fun p => ⟨fun h => ?_, fun ⟨h2, h499, hp⟩ => ?_⟩⟩
  · obtain ⟨h2, h499, -⟩ := smallPrimes_trial p h
    lift p to Nat using by omega
    exact ⟨h2, h499, prime_of_mem_smallPrimes h⟩
  · lift p to Nat using by omega
    exact mem_smallPrimes_of_prime hp (by omega)

/-- The least prime above the table is 503. -/
theorem prime_le_499_of_lt_503 {p : Nat} (hp : p.Prime) (h : p < 503) : p ≤ 499 := by
  by_contra hgt
  obtain rfl | rfl | rfl : p = 500 ∨ p = 501 ∨ p = 502 := by omega
  all_goals norm_num at hp

/-- A candidate that no entry divides has no prime factor below 503 (R173). -/
theorem le_of_prime_dvd_of_undecided {c : Int} (hc : ∀ p ∈ smallPrimes, ¬ p ∣ c) {p : Nat} (hp : p.Prime)
    (hdvd : (p : Int) ∣ c) : 503 ≤ p := by
  by_contra hlt
  exact hc p (mem_smallPrimes_of_prime hp (prime_le_499_of_lt_503 hp (by omega))) hdvd

/-- Settles O43: the least prime factor is at least 503, and the square of it is at most a composite candidate. -/
theorem undecidedCandidates : Obligations.UndecidedCandidates := by
  refine ⟨fun c h2 hc => ?_, by decide, by norm_num⟩
  have hodd : ¬ (2 : Int) ∣ c := hc 2 (by decide)
  lift c to Nat using by omega
  have hfactor : 503 ≤ c.minFac :=
    le_of_prime_dvd_of_undecided hc (Nat.minFac_prime (by omega)) (Int.natCast_dvd_natCast.2 c.minFac_dvd)
  have hle : c.minFac ≤ c := Nat.minFac_le (by omega)
  refine ⟨by omega, by omega, fun p hp hlt hdvd => ?_, fun hcomposite => ?_⟩
  · exact absurd (le_of_prime_dvd_of_undecided hc hp hdvd) (by omega)
  · have hsq : c.minFac ^ 2 ≤ c := Nat.minFac_sq_le_self (by omega) hcomposite
    have : 503 ^ 2 ≤ c.minFac ^ 2 := Nat.pow_le_pow_left hfactor 2
    omega

/-! ## Stage 2: a prime passes (R174, R179) -/

/-- Modulo a prime, a repeated square that is 1 comes from a 1 or through a -1. -/
theorem dvd_sub_one_or_add_one_of_dvd_pow_sub_one {c x : Int} (hc : Prime c) {s : Nat} (h : c ∣ x ^ 2 ^ s - 1) :
    c ∣ x - 1 ∨ ∃ r < s, c ∣ x ^ 2 ^ r + 1 := by
  induction s with
  | zero => exact .inl (by simpa using h)
  | succ s ih =>
    have hsplit : x ^ 2 ^ (s + 1) - 1 = (x ^ 2 ^ s - 1) * (x ^ 2 ^ s + 1) := by ring
    rw [hsplit] at h
    obtain hsub | hadd := hc.dvd_or_dvd h
    · obtain hone | ⟨r, hr, hdvd⟩ := ih hsub
      · exact .inl hone
      · exact .inr ⟨r, hr.trans (Nat.lt_succ_self s), hdvd⟩
    · exact .inr ⟨s, Nat.lt_succ_self s, hadd⟩

/-- A residue in range that differs from `x` by a multiple of `c` is the residue of `x`. -/
theorem emod_eq_of_dvd_sub {c x a : Int} (h0 : 0 ≤ a) (hlt : a < c) (h : c ∣ x - a) : x % c = a := by
  rw [Int.emod_eq_emod_iff_emod_sub_eq_zero.2 (Int.emod_eq_zero_of_dvd h), Int.emod_eq_of_lt h0 hlt]

/-- An odd prime passes the test, by Fermat's little theorem (R179). -/
theorem passesBaseTwo_of_prime {c : Nat} (hc : c.Prime) (h2 : 2 < c) : passesBaseTwo c := by
  obtain ⟨s, d, hodd, hsplit⟩ := Nat.exists_eq_two_pow_mul_odd (n := c - 1) (by omega)
  have hcoprime : IsCoprime (2 : Int) c :=
    Nat.isCoprime_iff_coprime.2 ((Nat.coprime_primes Nat.prime_two hc).2 h2.ne)
  have hfermat : (c : Int) ∣ ((2 : Int) ^ d) ^ 2 ^ s - 1 := by
    rw [← pow_mul, mul_comm d, ← hsplit]
    exact (Int.ModEq.pow_card_sub_one_eq_one hc hcoprime).symm.dvd
  refine ⟨d, s, ?_, Nat.odd_iff.1 hodd, ?_⟩
  · rw [← Nat.cast_one, ← Nat.cast_sub hc.one_le, hsplit]
    push_cast
    ring
  obtain hone | ⟨r, hr, hneg⟩ :=
    dvd_sub_one_or_add_one_of_dvd_pow_sub_one (Nat.prime_iff_prime_int.1 hc) hfermat
  · exact .inl (emod_eq_of_dvd_sub (by omega) (by omega) hone)
  · refine .inr ⟨r, hr, emod_eq_of_dvd_sub (by omega) (by omega) ?_⟩
    rw [pow_mul, sub_sub_eq_add_sub]
    exact dvd_sub_self_right.2 hneg

/-! ## Stage 3: the square test (R176, R177) -/

/-- The bits that the bisection goes through are enough for the root of the candidate (R177). -/
theorem lt_two_pow_mul_two_pow_of_bitlen {c : Int} (hc : 0 ≤ c) :
    c < 2 ^ ((bitlen c.toNat + 1) / 2 + 1) * 2 ^ ((bitlen c.toNat + 1) / 2 + 1) := by
  lift c to Nat using hc
  have hlt : c < 2 ^ ((bitlen c + 1) / 2 + 1 + ((bitlen c + 1) / 2 + 1)) :=
    (lt_two_pow_bitlen c).trans_le (Nat.pow_le_pow_right (by decide) (by omega))
  rw [← pow_add]
  exact_mod_cast hlt

/-- A square between those of `r` and of `r + 1`, the latter excluded, is the square of `r`. -/
theorem eq_of_mul_self_between {r t : Int} (hr : 0 ≤ r) (ht : 0 ≤ t) (h1 : r * r ≤ t * t)
    (h2 : t * t < (r + 1) * (r + 1)) : r = t := by
  have hle : r ≤ t := (mul_self_le_mul_self_iff hr ht).2 h1
  have hlt : t < r + 1 := (mul_self_lt_mul_self_iff ht (by omega)).2 h2
  omega

/-- The square test is exact: the bisection's value is the only root there can be. -/
theorem isSquare_iff {c : Int} (hc : 0 ≤ c) : isSquare c = true ↔ ∃ r : Int, 0 ≤ r ∧ r * r = c := by
  obtain ⟨hr, hle, hlt⟩ := rootLoop_spec c ((bitlen c.toNat + 1) / 2 + 1) 0 le_rfl (by omega)
    (by rw [zero_add]; exact lt_two_pow_mul_two_pow_of_bitlen hc)
  rw [isSquare, beq_iff_eq]
  constructor
  · exact fun h => ⟨_, hr, h⟩
  · rintro ⟨t, ht, rfl⟩
    rw [eq_of_mul_self_between hr ht hle hlt]

/-- Settles O44: the bisection's value is the integer square root. -/
theorem squareTestIsExact : Obligations.SquareTestIsExact := fun _ => isSquare_iff

/-! ## The function, stage by stage (R170, R173, R174, R176) -/

section
variable {c : Int} (h2 : 2 ≤ c)
include h2

/-- A table prime is a probable prime at stage 1 (R173). -/
theorem mrTestOp_of_mem (h : c ∈ smallPrimes) : mrTestOp c = .results 1 1 := by
  rw [mrTestOp, if_neg (by omega), if_pos h]
  rfl

/-- A proper multiple of an entry is composite at stage 1 (R173). -/
theorem mrTestOp_of_dvd (hmem : c ∉ smallPrimes) (h : ∃ p ∈ smallPrimes, p ∣ c) : mrTestOp c = .results 0 1 := by
  simp only [Int.dvd_iff_emod_eq_zero] at h
  rw [mrTestOp, if_neg (by omega), if_neg hmem, if_pos h]
  rfl

/-- A candidate that stage 1 leaves undecided goes to the stages 2 and 3 (R173). -/
theorem mrTestOp_of_undecided (h : ∀ p ∈ smallPrimes, ¬ p ∣ c) :
    mrTestOp c = if millerRabin c = false then .results 0 2 else if isSquare c then .results 0 3 else .results 2 3 := by
  have hnone : ¬ ∃ p ∈ smallPrimes, c % p = 0 := by
    rintro ⟨p, hp, hmod⟩
    exact h p hp (Int.dvd_of_emod_eq_zero hmod)
  rw [mrTestOp, if_neg (by omega), if_neg fun hmem => h c hmem dvd_rfl, if_neg hnone]
  rfl

/-- A candidate that stage 1 leaves undecided is odd, so it is above 2 and stage 2 is the test to base 2 (R174). -/
theorem millerRabin_iff_of_undecided (h : ∀ p ∈ smallPrimes, ¬ p ∣ c) : millerRabin c = true ↔ passesBaseTwo c := by
  have hodd : ¬ (2 : Int) ∣ c := h 2 (by decide)
  exact millerRabin_iff (by omega)

/-- An undecided candidate that fails the test to base 2 is composite at stage 2 (R174). -/
theorem mrTestOp_of_not_passesBaseTwo (h : ∀ p ∈ smallPrimes, ¬ p ∣ c) (hpass : ¬ passesBaseTwo c) :
    mrTestOp c = .results 0 2 := by
  rw [← millerRabin_iff_of_undecided h2 h, Bool.not_eq_true] at hpass
  rw [mrTestOp_of_undecided h2 h, if_pos hpass]

/-- An undecided candidate that passes the test to base 2 is decided by the square test (R176). -/
theorem mrTestOp_of_passesBaseTwo (h : ∀ p ∈ smallPrimes, ¬ p ∣ c) (hpass : passesBaseTwo c) :
    mrTestOp c = if isSquare c then .results 0 3 else .results 2 3 := by
  rw [← millerRabin_iff_of_undecided h2 h] at hpass
  rw [mrTestOp_of_undecided h2 h, if_neg (by simp [hpass])]

/-- It is composite at stage 3 when it is a perfect square (R176). -/
theorem mrTestOp_of_square (h : ∀ p ∈ smallPrimes, ¬ p ∣ c) (hpass : passesBaseTwo c)
    (hsq : ∃ r : Int, 0 ≤ r ∧ r * r = c) : mrTestOp c = .results 0 3 := by
  rw [mrTestOp_of_passesBaseTwo h2 h hpass, if_pos ((isSquare_iff (by omega)).2 hsq)]

/-- It continues when it is none (R176). -/
theorem mrTestOp_of_not_square (h : ∀ p ∈ smallPrimes, ¬ p ∣ c) (hpass : passesBaseTwo c)
    (hsq : ¬ ∃ r : Int, 0 ≤ r ∧ r * r = c) : mrTestOp c = .results 2 3 := by
  rw [mrTestOp_of_passesBaseTwo h2 h hpass, if_neg (mt (isSquare_iff (by omega)).1 hsq)]

/-- The result is one of five pairs, and `PROBABLE_PRIME` for a table prime only (R178). -/
theorem mrTestOp_cases :
    (c ∈ smallPrimes ∧ mrTestOp c = .results 1 1) ∨ mrTestOp c = .results 0 1 ∨ mrTestOp c = .results 0 2
    ∨ mrTestOp c = .results 0 3 ∨ mrTestOp c = .results 2 3 := by
  by_cases hmem : c ∈ smallPrimes
  · exact .inl ⟨hmem, mrTestOp_of_mem h2 hmem⟩
  by_cases hdvd : ∃ p ∈ smallPrimes, p ∣ c
  · exact .inr (.inl (mrTestOp_of_dvd h2 hmem hdvd))
  have hundecided : ∀ p ∈ smallPrimes, ¬ p ∣ c := by simpa using hdvd
  rw [mrTestOp_of_undecided h2 hundecided]
  split_ifs <;> simp

end

/-! ## Soundness (R179) -/

/-- A prime above the table continues: nothing of the table divides it, it passes stage 2, and it is no square. -/
theorem mrTestOp_of_prime {c : Nat} (hp : c.Prime) (hc : 499 < c) : mrTestOp c = .results 2 3 := by
  have hundecided : ∀ p ∈ smallPrimes, ¬ p ∣ (c : Int) := by
    intro p hmem hdvd
    obtain ⟨h2, h499, -⟩ := smallPrimes_trial p hmem
    lift p to Nat using by omega
    have := (Nat.dvd_prime hp).1 (Int.natCast_dvd_natCast.1 hdvd)
    omega
  have hnot : ¬ ∃ r : Int, 0 ≤ r ∧ r * r = c := by
    rintro ⟨r, -, hr⟩
    exact (Nat.prime_iff_prime_int.1 hp).irreducible.not_isSquare ⟨r, hr.symm⟩
  exact mrTestOp_of_not_square (by omega) hundecided (passesBaseTwo_of_prime hp (by omega)) hnot

/-- Settles O41: a prime up to 499 is in the table, and a prime above it continues, so neither is called composite. -/
theorem mrtestVerdictsAreSound : Obligations.MrtestVerdictsAreSound := by
  intro c h2
  have hsmall : c ≤ 499 → Nat.Prime c.toNat → mrTestOp c = .results 1 1 := fun h499 hp =>
    mrTestOp_of_mem h2 ((smallPrimeTable.2 c).2 ⟨h2, h499, hp⟩)
  have hlarge : 499 < c → Nat.Prime c.toNat → mrTestOp c = .results 2 3 := by
    intro h499 hp
    lift c to Nat using by omega
    exact mrTestOp_of_prime hp (by omega)
  refine ⟨⟨fun h => ?_, fun ⟨h499, hp⟩ => hsmall h499 hp⟩, hlarge, fun stage h hp => ?_⟩
  · obtain ⟨hmem, -⟩ | h' | h' | h' | h' := mrTestOp_cases h2
    · exact ((smallPrimeTable.2 c).1 hmem).2
    all_goals simp [h] at h'
  · obtain h499 | h499 := le_or_gt c 499
    · simp [hsmall h499 hp] at h
    · simp [hlarge h499 hp] at h

/-! ## The command (R170, R178) -/

/-- The pairs are small natural numbers (R178). -/
theorem exists_mrTestOp_eq {c : Int} (h2 : 2 ≤ c) :
    ∃ p ∈ [(1, 1), (0, 1), (0, 2), (0, 3), (2, 3)], mrTestOp c = .results (p.1 : Nat) (p.2 : Nat) := by
  obtain ⟨-, h⟩ | h | h | h | h := mrTestOp_cases h2 <;> simp [h]

/-- Completion of `MRTEST` in its domain (R96, R172). -/
theorem Block.outcome_mrtest {W : Nat} (b : Block W) : b.outcome .mrtest = mrTestOp (b.operand .n) := rfl

/-- Settles O40: the command completes with the function's pair, which each clause's test fixes. -/
theorem mrtestVerdictByStages : Obligations.MrtestVerdictByStages := by
  intro s hs h2 c
  obtain ⟨⟨verdict, stage⟩, -, hout⟩ := exists_mrTestOp_eq h2
  have hpair : ∀ {v t : Nat}, mrTestOp c = .results v t → verdict = v ∧ stage = t := by
    intro v t h
    simpa using hout.symm.trans h
  refine ⟨verdict, stage, ?_, fun h => hpair (mrTestOp_of_mem h2 h), fun hmem h => hpair (mrTestOp_of_dvd h2 hmem h),
    fun h hpass => hpair (mrTestOp_of_not_passesBaseTwo h2 h hpass),
    fun h hpass hsq => hpair (mrTestOp_of_square h2 h hpass hsq),
    fun h hpass hsq => hpair (mrTestOp_of_not_square h2 h hpass hsq)⟩
  rw [exec_running hs rfl, Block.outcome_mrtest, hout]
  rfl

/-- A natural number up to 3 is read back from the register it is written to (R77). -/
theorem sval_enc_natCast {W : Nat} (hW : 3 ≤ W) {k : Nat} (hk : k ≤ 3) : sval (enc W k) = k := by
  have hpow : (2 : Int) ^ 2 ≤ 2 ^ (W - 1) := pow_le_pow_right₀ (by decide) (by omega)
  exact sval_enc_of_fits (by omega) ⟨by omega, by omega⟩

/-- Settles O42: the pair is one of the five, and each is read back as it was written. -/
theorem mrtestResultPairs : Obligations.MrtestResultPairs := by
  intro s hs h2
  have hW := s.cfg.W_ge
  obtain ⟨⟨verdict, stage⟩, hmem, hout⟩ := exists_mrTestOp_eq h2
  have hexec := exec_running hs rfl
  rw [Block.outcome_mrtest, hout] at hexec
  refine ⟨_, hexec, ?_⟩
  simp only [List.mem_cons, List.not_mem_nil, or_false, Prod.mk.injEq] at hmem
  rw [Block.complete_results_res0, Block.complete_results_res1, sval_enc_natCast (by omega) (by omega),
    sval_enc_natCast (by omega) (by omega)]
  simp only [List.mem_cons, List.not_mem_nil, or_false, Prod.mk.injEq]
  omega

end Sys2Proof.Machine
end

