-- ==== Sys2Proof/Proofs/Exceptions.lean ====
section
/-! SUPPORT. What goes wrong and how it is recorded: `INVALID_DOMAIN`, when it is raised and what it writes (R211), and
`AERR`, what sets it, what clears it, and that no command heeds it (R214). -/

namespace Sys2Proof.Machine

open Sys2Proof

/-! ## `INVALID_DOMAIN` (R211) -/

/-- A function that checks its domain first gives `InvalidDomain` exactly where the check fails. -/
theorem ite_eq_invalidDomain_iff {p : Prop} [Decidable p] {r0 r1 : Int} :
    (if p then .invalidDomain else OpResult.results r0 r1) = .invalidDomain ↔ p := by
  simp

/-- The operands outside the domain of `MODEXP` (R112). -/
theorem Block.outcome_modexp_eq_invalidDomain_iff {W : Nat} (b : Block W) :
    b.outcome .modexp = .invalidDomain ↔ b.operand .e < 0 ∨ b.operand .n < 1 :=
  ite_eq_invalidDomain_iff

/-- The operands outside the domain of `JACOBI` (R132). -/
theorem Block.outcome_jacobi_eq_invalidDomain_iff {W : Nat} (b : Block W) :
    b.outcome .jacobi = .invalidDomain ↔ b.operand .n < 1 ∨ b.operand .n % 2 = 0 :=
  ite_eq_invalidDomain_iff

/-- The operands outside the domain of `LUCAS` (R152). -/
theorem Block.outcome_lucas_eq_invalidDomain_iff {W : Nat} (b : Block W) :
    b.outcome .lucas = .invalidDomain ↔ b.operand .e < 1 ∨ b.operand .n < 1 ∨ b.operand .n % 2 = 0 :=
  ite_eq_invalidDomain_iff

/-- The operand outside the domain of `MRTEST` (R172): every stage ends in a pair of results. -/
theorem Block.outcome_mrtest_eq_invalidDomain_iff {W : Nat} (b : Block W) :
    b.outcome .mrtest = .invalidDomain ↔ b.operand .n < 2 := by
  rw [Block.outcome_mrtest]
  refine ⟨fun hout => ?_, fun hlt => if_pos hlt⟩
  by_contra hge
  obtain ⟨_, -, hpair⟩ := exists_mrTestOp_eq (not_lt.1 hge)
  rw [hout] at hpair
  cases hpair

/-- With the invariants a completion sets `ERR` exactly for `InvalidDomain`: `ERR` is clear while a command runs (R30). -/
theorem Block.complete_err_iff {W : Nat} {b : Block W} (h : b.Inv) (hb : b.busy = true) (out : OpResult) :
    (b.complete out).err = true ↔ out = .invalidDomain := by
  obtain ⟨-, herr, -⟩ := h.1 hb
  cases out with
  | invalidDomain => simp
  | results r0 r1 => simp [herr]

/-- Completion of a running command, with `bad` for the operands outside its domain: the error is raised exactly there, and
the results stay the zeros of acceptance (R96, R211). -/
theorem exec_running_invalidDomain {i : Instr} {s : State} {bad : Prop} (hi : i.computing = true) (hs : s.Inv)
    (hrun : s.running i) (hbad : s.block.outcome i = .invalidDomain ↔ bad) :
    ∃ b : Block s.cfg.W, exec i s = .next (s.withBlock b) ∧ (b.err = true ↔ bad)
      ∧ (bad → b = { s.block with err := true, ecode := 1#4, done := true, busy := false }
          ∧ b.res0.toNat = 0 ∧ b.res1.toNat = 0) := by
  refine ⟨_, exec_running hrun hi, (Block.complete_err_iff hs hrun.1 _).trans hbad, fun h => ?_⟩
  obtain ⟨-, -, -, hres0, hres1, -, -⟩ := hs.1 hrun.1
  rw [hbad.2 h]
  refine ⟨rfl, ?_, ?_⟩
  · simp [hres0]
  · simp [hres1]

/-- Settles O22: each command's domain, put into the completion of a running command. -/
theorem invalidDomainOutcome : Obligations.InvalidDomainOutcome := by
  intro i s hi hs hrun
  cases i with
  | clr => cases hi
  | modexp => exact exec_running_invalidDomain hi hs hrun s.block.outcome_modexp_eq_invalidDomain_iff
  | jacobi => exact exec_running_invalidDomain hi hs hrun s.block.outcome_jacobi_eq_invalidDomain_iff
  | lucas => exact exec_running_invalidDomain hi hs hrun s.block.outcome_lucas_eq_invalidDomain_iff
  | mrtest => exact exec_running_invalidDomain hi hs hrun s.block.outcome_mrtest_eq_invalidDomain_iff

/-! ## `AERR` after a write (R91 to R95, R214) -/

/-- An address is an operand register's, or `CMD`'s, or a read-only or reserved one (R70). -/
theorem addr_cases (addr : Addr) :
    (∃ r : Reg, addr = r.addr) ∨ addr = cmdAddr ∨ (addr.toNat = 8 ∨ addr.toNat = 9 ∨ 11 ≤ addr.toNat) := by
  cases ha : decodeAddr addr with
  | operand r => exact .inl ⟨r, decodeAddr_eq_operand ha⟩
  | cmd => exact .inr (.inl (decodeAddr_eq_cmd ha))
  | res0 => exact .inr (.inr (by have := decodeAddr_eq_res0 ha; omega))
  | res1 => exact .inr (.inr (by have := decodeAddr_eq_res1 ha; omega))
  | status => exact .inr (.inr (by have := decodeAddr_eq_status ha; omega))
  | cfg => exact .inr (.inr (by have := decodeAddr_eq_cfg ha; omega))
  | reserved => exact .inr (.inr (by have := decodeAddr_eq_reserved ha; omega))

/-- `CMD`'s address is none of the read-only and reserved ones (R70). -/
theorem ne_cmdAddr_of_refused {addr : Addr} (h : addr.toNat = 8 ∨ addr.toNat = 9 ∨ 11 ≤ addr.toNat) :
    addr ≠ cmdAddr := by
  rintro rfl
  exact absurd h (by decide)

/-- A command word that is not `CLR`, legal or not, leaves `AERR` of an idle block (R94, R98). -/
theorem Block.afterWrite_cmd_aerr {W : Nat} {b : Block W} (hb : b.busy = false) (data : Word W) :
    (b.afterWrite cmdAddr data).aerr = true ↔ b.aerr = true ∧ data.toNat ≠ 0 := by
  rw [Block.afterWrite_cmd hb]
  split_ifs with h0 h4
  · simp [h0]
  · simp [h0]
  · simp [h0]

/-- After a write `AERR` is set exactly where the write was refused, or it was set and the write was no `CLR` to an idle
block. -/
theorem Block.afterWrite_aerr {W : Nat} (b : Block W) (addr : Addr) (data : Word W) :
    (b.afterWrite addr data).aerr = true
      ↔ (b.busy = true ∨ addr.toNat = 8 ∨ addr.toNat = 9 ∨ 11 ≤ addr.toNat)
        ∨ (b.aerr = true ∧ ¬ (b.busy = false ∧ addr = cmdAddr ∧ data.toNat = 0)) := by
  cases hb : b.busy with
  | true => simp [Block.afterWrite_busy hb]
  | false =>
    obtain ⟨r, rfl⟩ | rfl | hrefused := addr_cases addr
    · have hle := Reg.toNat_addr_le r
      have hne : r.addr ≠ cmdAddr := by cases r <;> decide
      have hnot : ¬ (r.addr.toNat = 8 ∨ r.addr.toNat = 9 ∨ 11 ≤ r.addr.toNat) := by omega
      simp [Block.afterWrite_operand hb, hne, hnot]
    · rw [Block.afterWrite_cmd_aerr hb]
      simp [cmdAddr]
    · simp [Block.afterWrite_refused b (by omega) (ne_cmdAddr_of_refused hrefused), hrefused]

/-! ## `AERR` after a step (R214) -/

/-- The unit's turn leaves `AERR` (R96). -/
theorem unitTurn_aerr {s t : State} (h : unitTurn s = .next t) : t.block.aerr = s.block.aerr := by
  obtain ⟨-, rfl⟩ | ⟨i, -, -, -, rfl⟩ := unitTurn_cases h
  · rfl
  · obtain ⟨-, -, haerr, -⟩ := s.block.complete_status (s.block.outcome i)
    exact haerr

/-- Whether the next turn is a refused write, told by the write. -/
theorem State.refusedNext_iff {s : State} {addr : Addr} {data : Word s.cfg.W} {ts : List (Turn s.cfg.W)}
    (hp : s.port.turns = .wr addr data :: ts) :
    s.refusedNext ↔ s.block.busy = true ∨ addr.toNat = 8 ∨ addr.toNat = 9 ∨ 11 ≤ addr.toNat := by
  simp [State.refusedNext, State.writeNext, hp]

/-- Whether the next turn is `CLR` to an idle block, told by the write. -/
theorem State.clearNext_iff {s : State} {addr : Addr} {data : Word s.cfg.W} {ts : List (Turn s.cfg.W)}
    (hp : s.port.turns = .wr addr data :: ts) :
    s.clearNext ↔ s.block.busy = false ∧ addr = cmdAddr ∧ data.toNat = 0 := by
  simp [State.clearNext, State.writeNext, hp]

/-- Where the next turn is a read or the unit's, or none is left, R214 has `AERR` stay. -/
theorem State.aerr_iff_of_read_or_unit (s : State)
    (hturn : ∀ t ts, s.port.turns = t :: ts → t = .unit ∨ ∃ addr, t = .rd addr) :
    s.block.aerr = true ↔ s.refusedNext ∨ (s.block.aerr = true ∧ ¬ s.clearNext ∧ ¬ s.resetNext) := by
  have hwrite : ∀ addr data, ¬ s.writeNext addr data := fun _ _ ⟨_, hp⟩ => by simpa using hturn _ _ hp
  have hrefused : ¬ s.refusedNext := fun ⟨addr, data, hw, _⟩ => hwrite addr data hw
  have hclear : ¬ s.clearNext := fun ⟨_, data, hw, _⟩ => hwrite cmdAddr data hw
  have hreset : ¬ s.resetNext := fun ⟨_, _, _, hp⟩ => by simpa using hturn _ _ hp
  simp [hrefused, hclear, hreset]

/-- After a step `AERR` is set exactly where the step refused a write, or it was set and the step was neither `CLR` nor a
reset. -/
theorem step_aerr {s t : State} (h : step s = .next t) :
    t.block.aerr = true ↔ s.refusedNext ∨ (s.block.aerr = true ∧ ¬ s.clearNext ∧ ¬ s.resetNext) := by
  obtain ⟨hp, hu⟩ | ⟨ts, ⟨_, hp, rfl⟩ | ⟨addr, data, hp, rfl⟩ | ⟨hp, hu⟩ | ⟨w, c, hp, rfl⟩⟩ := step_cases h
  · rw [unitTurn_aerr hu]
    exact s.aerr_iff_of_read_or_unit (by simp [hp])
  · exact s.aerr_iff_of_read_or_unit (by simp [hp])
  · have hr : ¬ s.resetNext := by simp [State.resetNext, hp]
    rw [State.withBlock_block, Block.afterWrite_aerr, State.refusedNext_iff hp, State.clearNext_iff hp]
    simp [hr]
  · rw [unitTurn_aerr hu]
    exact s.aerr_iff_of_read_or_unit (by simp [hp])
  · have hrefused : ¬ s.refusedNext := by simp [State.refusedNext, State.writeNext, hp]
    have hr : s.resetNext := ⟨w, c, ts, hp⟩
    simp [hrefused, hr]

/-! ## No command heeds `AERR` (R214) -/

/-- With its outcome given, every phase of a computing command takes the same step with `AERR` set, but for `AERR`. -/
theorem Block.runCommand_aerr {W : Nat} (b : Block W) (i : Instr) (out : OpResult) :
    Block.runCommand { b with aerr := true } i out = { b.runCommand i out with aerr := true } := by
  simp only [Block.runCommand]
  split_ifs
  · exact Block.complete_aerr b true out
  · rfl
  · rfl

/-- Settles O54: every turn's effect on `AERR`; a command's outcome and its phases do not read it. -/
theorem accessFlag : Obligations.AccessFlag := by
  refine ⟨fun _ _ => step_aerr, fun i s hi => ⟨_, exec_computing hi s, ?_⟩⟩
  rw [exec_computing hi, State.withBlock_block, Block.outcome_aerr, Block.runCommand_aerr]

end Sys2Proof.Machine
end

