-- ==== Sys2Proof/Proofs/ResetAndHazards.lean ====
section
/-! SUPPORT. What persists between steps: an idle block left alone (R230), the operand registers (R237), and the results
until the next command word (R238). -/

namespace Sys2Proof.Machine

open Sys2Proof

/-! ## An idle block waits (R230, R31) -/

/-- Settles O9: with no turn left the step is the unit's, and the unit's turn does nothing to an idle block. -/
theorem idleBlockWaits : Obligations.IdleBlockWaits :=
  fun s ts hb =>
    ⟨fun hp => (step_nil hp).trans (unitTurn_idle hb),
      fun hp => (step_cons hp).trans (unitTurn_idle (s := s.withTurns ts) hb)⟩

/-! ## Operand registers persist (R237) -/

/-- A word other than `CLR`'s written to `CMD` of an idle block leaves every operand register (R94, R98). -/
theorem Block.get_afterWrite_cmd {W : Nat} {b : Block W} (hb : b.busy = false) {data : Word W} (h0 : data.toNat ≠ 0)
    (r : Reg) : (b.afterWrite cmdAddr data).get r = b.get r := by
  rw [Block.afterWrite_cmd hb, if_neg h0]
  split_ifs
  · exact b.get_accept data.toNat r
  · exact b.get_raiseIllegalCommand data r

/-- A write leaves an operand register, unless the block is idle and the write is to that register or is `CLR`. -/
theorem Block.get_afterWrite {W : Nat} {b : Block W} {addr : Addr} {data : Word W} {r : Reg}
    (hset : b.busy = false → addr ≠ r.addr) (hclear : b.busy = false → addr = cmdAddr → data.toNat ≠ 0) :
    (b.afterWrite addr data).get r = b.get r := by
  cases hb : b.busy with
  | true => rw [Block.afterWrite_busy hb, Block.get_refuseWrite]
  | false =>
    obtain ⟨r', rfl⟩ | rfl | hrefused := addr_cases addr
    · have hne : r ≠ r' := by
        rintro rfl
        exact hset hb rfl
      rw [Block.afterWrite_operand hb, Block.get_set_of_ne b data hne]
    · exact Block.get_afterWrite_cmd hb (hclear hb rfl) r
    · rw [Block.afterWrite_refused b (by omega) (ne_cmdAddr_of_refused hrefused), Block.get_refuseWrite]

/-- The unit's turn leaves every operand register (R20, R96). -/
theorem unitTurn_get {s t : State} (h : unitTurn s = .next t) (r : Reg) :
    (t.block.get r).toNat = (s.block.get r).toNat := by
  obtain ⟨-, rfl⟩ | ⟨i, -, -, -, rfl⟩ := unitTurn_cases h
  · rfl
  · rw [State.withBlock_block, Block.get_complete]

/-- Settles O51: a read and the unit's turn write no operand register, and a write does so only in the excepted cases. -/
theorem operandsPersist : Obligations.OperandsPersist := by
  intro s t r h hr hc hw
  obtain ⟨-, hu⟩ | ⟨ts, ⟨_, -, rfl⟩ | ⟨addr, data, hp, rfl⟩ | ⟨-, hu⟩ | ⟨w, l, hp, -⟩⟩ := step_cases h
  · exact unitTurn_get hu r
  · rfl
  · have hset : s.block.busy = false → addr ≠ r.addr := by
      rintro hb rfl
      exact hw ⟨hb, data, ts, hp⟩
    have hclear : s.block.busy = false → addr = cmdAddr → data.toNat ≠ 0 := fun hb haddr h0 =>
      hc ((State.clearNext_iff hp).2 ⟨hb, haddr, h0⟩)
    exact congrArg BitVec.toNat (Block.get_afterWrite hset hclear)
  · exact unitTurn_get hu r
  · exact absurd ⟨w, l, ts, hp⟩ hr

/-! ## A command word clears the results (R238) -/

/-- Any word written to `CMD` of an idle block leaves both results zero: `CLR`, acceptance and the report of an illegal
command all write them so (R94, R97, R98). -/
theorem Block.afterWrite_cmd_results {W : Nat} {b : Block W} (hb : b.busy = false) (data : Word W) :
    (b.afterWrite cmdAddr data).res0 = 0#W ∧ (b.afterWrite cmdAddr data).res1 = 0#W := by
  rw [Block.afterWrite_cmd hb]
  split_ifs
  · exact ⟨rfl, rfl⟩
  · exact ⟨enc_zero W, enc_zero W⟩
  · exact ⟨enc_zero W, enc_zero W⟩

/-- Settles O53: the step has the effect of the write, whatever the word. -/
theorem commandWordClearsResults : Obligations.CommandWordClearsResults := by
  rintro s data hb ⟨ts, hp⟩
  obtain ⟨hres0, hres1⟩ := Block.afterWrite_cmd_results hb data
  exact ⟨_, step_wr hp, congrArg BitVec.toNat hres0, congrArg BitVec.toNat hres1⟩

end Sys2Proof.Machine
end
